-- ==== Sys2Proof/Word.lean ====
section
/-! DEFINITION. The word types of MH3BP: bytes, 32-bit bus and lane words, 64-bit lanes and counters (00_scope.md R6, R8). -/

namespace Sys2Proof

/-- One byte of the data memory or of the remainder buffer (`u8`, R8). -/
abbrev Byte := BitVec 8

/-- A `u32`: a register-bus word, a CMD word, a 32-bit lane value (R6, R8). -/
abbrev Word := BitVec 32

/-- A `u64`: a lane register or the `SIZE` counter (R6, R8). -/
abbrev DWord := BitVec 64

end Sys2Proof
end

