-- ==== Sys2Proof/Machine/Bytes.lean ====
section
/-! DEFINITION. Byte order, slices of byte lists and the two halves of a 64-bit register (00_scope.md R8, R11, 20_memory.md
R63, R64). -/

namespace Sys2Proof.Machine

/-- `pack_le`: the little-endian integer of a byte list, the sum of `bytes[j] * 2^(8*j)` (00_scope.md R11). -/
def packLE : List Byte → Nat
  | [] => 0
  | b :: bs => b.toNat + 256 * packLE bs

/-- `unpack_le`: the `n` low bytes of a value, least significant first (R11). -/
def unpackLE (v : Nat) : Nat → List Byte
  | 0 => []
  | n + 1 => BitVec.ofNat 8 v :: unpackLE (v / 256) n

/-- `list[a .. b)` (R11). -/
def slice (bytes : List Byte) (a b : Nat) : List Byte := (bytes.drop a).take (b - a)

/-- `v[31:0]` (R8). -/
def lo32 (v : DWord) : Word := v.extractLsb' 0 32

/-- `v[63:32]` (R8). -/
def hi32 (v : DWord) : Word := v.extractLsb' 32 32

/-- `zext_64` (R11). -/
def zext64 (v : Word) : DWord := v.setWidth 64

/-- `hi : lo`, concatenation with `hi` in the high bits (00_scope.md R9). -/
def join64 (hi lo : Word) : DWord := hi ++ lo

/-- Up to four bytes as a zero-extended 32-bit word. -/
def word32 (bytes : List Byte) : Word := BitVec.ofNat 32 (packLE bytes)

/-- Up to eight bytes as a zero-extended 64-bit word. -/
def word64 (bytes : List Byte) : DWord := BitVec.ofNat 64 (packLE bytes)

/-- Block word `j` of a variant with 32-bit lanes (20_memory.md R64). -/
def blockWord32 (blk : List Byte) (j : Nat) : Word := word32 (slice blk (4 * j) (4 * j + 4))

/-- Block word `j` of `x64_128` (R64). -/
def blockWord64 (blk : List Byte) (j : Nat) : DWord := word64 (slice blk (8 * j) (8 * j + 8))

end Sys2Proof.Machine
end

