-- ==== Sys2Proof/Machine/Mixing.lean ====
section
/-! DEFINITION. The bit-mixing primitives (40_mixing.md R100 to R106): pure functions of unsigned words, arithmetic modulo
2^W. Sums and products are written with their constant first, `c1 * k` for the spec's `k * c1`: modulo 2^W the order of the
operands makes no difference, and Lean compares such terms without counting a 64-bit literal down to zero. -/

namespace Sys2Proof.Machine

/-- `rotl_W(x, r)`, 0 <= r <= W, both ends giving `x` (40_mixing.md R101). -/
def rotl {w : Nat} (x : BitVec w) (r : Nat) : BitVec w :=
  if r = 0 ∨ r = w then x else x <<< r ||| x >>> (w - r)

/-- `shuffle_W(k, c1, c2, r1)` (40_mixing.md R102). -/
def shuffle {w : Nat} (k c1 c2 : BitVec w) (r1 : Nat) : BitVec w :=
  c2 * rotl (c1 * k) r1

/-- `update_W(h, k, mixWith, c1, c2, r1, r2, n)` (40_mixing.md R103). -/
def update {w : Nat} (h k mixWith c1 c2 : BitVec w) (r1 r2 : Nat) (n : BitVec w) : BitVec w :=
  let t1 := h ^^^ shuffle k c1 c2 r1
  let t2 := rotl t1 r2
  let t3 := t2 + mixWith
  n + BitVec.ofNat w 5 * t3

/-- `h ^ (h >> s)`, the step "xor>>s" of the finalizers (40_mixing.md R104). -/
def xorShift {w : Nat} (h : BitVec w) (s : Nat) : BitVec w := h ^^^ h >>> s

/-- `finalMix32(h)` (40_mixing.md R104). -/
def finalMix32 (h : Word) : Word :=
  let h := xorShift h 16
  let h := 0x85ebca6b#32 * h
  let h := xorShift h 13
  let h := 0xc2b2ae35#32 * h
  xorShift h 16

/-- `finalMix64(k)` (40_mixing.md R105; its constants are the spec's, supplied from general knowledge: log 9). -/
def finalMix64 (k : DWord) : DWord :=
  let k := xorShift k 33
  let k := 0xff51afd7ed558ccd#64 * k
  let k := xorShift k 33
  let k := 0xc4ceb9fe1a85ec53#64 * k
  xorShift k 33

/-- The constants of one lane: the row of a variant's constant table (R120, R140, R160). -/
structure LaneParams (w : Nat) where
  cA : BitVec w
  cB : BitVec w
  r1 : Nat
  r2 : Nat
  n : BitVec w
  deriving DecidableEq, Repr

/-- The lane step with a lane's own constants: `update` (R103). -/
def laneUpdate {w : Nat} (p : LaneParams w) (h k mixWith : BitVec w) : BitVec w :=
  update h k mixWith p.cA p.cB p.r1 p.r2 p.n

/-- The fold of a remainder word into a lane: `h ^ shuffle(k, ...)` with the lane's own constants (R122, R142, R162). -/
def laneFold {w : Nat} (p : LaneParams w) (h k : BitVec w) : BitVec w :=
  h ^^^ shuffle k p.cA p.cB p.r1

end Sys2Proof.Machine
end

