-- ==== Sys2Proof/Config.lean ====
section
/-! DEFINITION. What an implementation of MH3BP fixes: the two OPEN parameters of 92_eei_decisions.md, as constants nothing
can see into, and the one value the model names for a byte of data memory that nothing has written. -/

namespace Sys2Proof

/-- `MEM_SIZE - 1`, the last address of the data memory. `MEM_SIZE` is OPEN, 1 <= `MEM_SIZE` <= 2^32 (00_scope.md R6,
20_memory.md R60), so its last address is any 32-bit value. It is the value `State.memLast` has at reset, and has no body:
no proof can lean on a particular size (log 4). -/
opaque Config.memLast : Word

/-- `REG_BASE`, the host's physical address of the register window (20_memory.md R61). OPEN; no rule depends on it (log 5). -/
opaque Config.regBase : Nat

/-- DESIGN CHOICE (log 3): what an address of the data memory reads as before anything has written it. The spec gives the
data memory no contents at power-on. -/
def Config.blankByte : Byte := 0#8

end Sys2Proof
end

