-- ==== Sys2Proof/Syntax.lean ====
section
/-! DEFINITION. What the host can say to MH3BP: the nine commands, the register-bus accesses that carry them, the host's
other actions, and the assembler lines of 30_encoding.md section 3. -/

namespace Sys2Proof

/-- The nine commands of the opcode map (30_encoding.md R84). No command has an operand field: operands are the registers
`ADDR` and `LEN` (R83). -/
inductive Instr where
  /-- START, 0x01 (44_stream_commands.md R180). -/
  | start
  /-- PUT, 0x02 (R182). -/
  | put
  /-- FINISH, 0x03 (R183). -/
  | finish
  /-- HASH, 0x04 (R184). -/
  | hash
  /-- BLK_PUT, 0x10 (45_block_commands.md R210). -/
  | blkPut
  /-- BLK_PUTN, 0x11 (R211). -/
  | blkPutn
  /-- BLK_REM, 0x12 (R212). -/
  | blkRem
  /-- BLK_FIN, 0x13 (R213). -/
  | blkFin
  /-- GET, 0x20 (R214). -/
  | get
  deriving DecidableEq, Repr

/-- The host-visible registers of 10_state.md section 2. -/
inductive Reg where
  | ctrl | status | addr | len | cmd | sizeLo | sizeHi
  | seed1Lo | seed1Hi | seed2Lo | seed2Hi | seed3 | seed4
  | result0 | result1 | result2 | result3
  deriving DecidableEq, Repr

/-- The kind of a register-bus access (30_encoding.md R80). -/
inductive AccessKind where
  | rd
  | wr
  deriving DecidableEq, Repr

/-- The BUS format, `(kind, offset, width, data)` (30_encoding.md R80). `width` counts bytes. `data` is the word written; a
RD carries none, and its `data` here is not looked at: the value it returns is a reply of the machine. -/
structure BusAccess where
  kind : AccessKind
  offset : BitVec 8
  width : Nat
  data : Word
  deriving DecidableEq, Repr

/-- One action of the world outside MH3BP. Each is one step of the total order of 20_memory.md R72. -/
inductive HostAction where
  /-- A register-bus access (46_register_access.md). -/
  | access (b : BusAccess)
  /-- The host, or another agent that shares the data memory, writes one byte of it (20_memory.md R60, R72). -/
  | memWrite (addr : Word) (value : Byte)
  /-- The host reads one byte of the data memory (R60, R72). -/
  | memRead (addr : Word)
  /-- The reset input `RST` (70_reset_and_hazards.md R300). -/
  | rst
  deriving DecidableEq, Repr

/-- What the host gets back from a read. -/
inductive Reply where
  /-- The word a RD access returned (R80). -/
  | word (v : Word)
  /-- The byte a data-memory read returned (R72). -/
  | byte (v : Byte)
  deriving DecidableEq, Repr

/-- `<reg>` of the assembler: a register name or a hexadecimal offset (30_encoding.md R89). -/
inductive RegRef where
  | named (r : Reg)
  | offset (o : BitVec 8)
  deriving DecidableEq, Repr

/-- One assembler line (30_encoding.md R89) or pseudo-instruction (R90). -/
inductive AsmLine where
  /-- `WR <reg>, <value>` -/
  | wr (r : RegRef) (v : Word)
  /-- `RD <reg>` -/
  | rd (r : RegRef)
  /-- `CMD <mnemonic>` -/
  | cmd (i : Instr)
  /-- `START v` -/
  | start (v : Word)
  /-- `PUT a, n` -/
  | put (a n : Word)
  /-- `FINISH` -/
  | finish
  /-- `HASH a, n` -/
  | hash (a n : Word)
  /-- `BLKPUT a` -/
  | blkPut (a : Word)
  /-- `BLKPUTN a, n` -/
  | blkPutn (a n : Word)
  /-- `BLKREM a, n` -/
  | blkRem (a n : Word)
  /-- `BLKFIN` -/
  | blkFin
  /-- `GET a` -/
  | get (a : Word)
  /-- `SEED32 s` -/
  | seed32 (s : Word)
  /-- `SEED128 s1, s2, s3, s4` -/
  | seed128 (s1 s2 s3 s4 : Word)
  /-- `SEED64 s1, s2` -/
  | seed64 (s1 s2 : DWord)
  deriving DecidableEq, Repr

end Sys2Proof
end

