-- ==== Sys2Proof/Machine/State.lean ====
section
/-! DEFINITION. The state of MH3BP and of the system around it as plain data, its value right after power-on reset, and the
ways a step can stop (10_state.md R22 to R39). -/

namespace Sys2Proof.Machine

/-- The three variants, by the names of 00_scope.md R2. -/
inductive Variant where
  /-- 32-bit result, one 32-bit lane, 4-byte block; code 0. -/
  | x86_32
  /-- 128-bit result, four 32-bit lanes, 16-byte block; code 1. -/
  | x86_128
  /-- 128-bit result, two 64-bit lanes, 16-byte block; code 2. -/
  | x64_128
  deriving DecidableEq, Repr

/-- `PHASE`, the block state machine of the protocol (10_state.md R28). -/
inductive Phase where
  /-- 0: no computation has been started since reset. -/
  | idle
  /-- 1: blocks and stream bytes are accepted. -/
  | absorb
  /-- 2: the block-level remainder has been accepted. -/
  | tail
  /-- 3: finalized; the result is valid. -/
  | final
  deriving DecidableEq, Repr

/-- The fault causes of 60_exceptions.md R270. A raised cause is part of the next state; it does not stop the model. -/
inductive Cause where
  /-- `E_REM_TOO_LONG`, 1 -/
  | remTooLong
  /-- `E_REM_TWICE`, 2 -/
  | remTwice
  /-- `E_FIN_TWICE`, 3 -/
  | finTwice
  /-- `E_MUTATE_AFTER_FINAL`, 4 -/
  | mutateAfterFinal
  /-- `E_BLOCK_AFTER_REM`, 5 -/
  | blockAfterRem
  /-- `E_NOT_STARTED`, 6 -/
  | notStarted
  /-- `E_BUFFER_NOT_EMPTY`, 7 -/
  | bufferNotEmpty
  /-- `E_RESULT_NOT_READY`, 8 -/
  | resultNotReady
  /-- `E_ILLEGAL_CMD`, 9 -/
  | illegalCmd
  /-- `E_BAD_VARIANT`, 10 -/
  | badVariant
  /-- `E_MEM_RANGE`, 11 -/
  | memRange
  /-- `E_BAD_REG`, 12 -/
  | badReg
  deriving DecidableEq, Repr

/-- The four 64-bit accumulator registers `H[1..4]` (10_state.md R30). -/
structure Lanes where
  h1 : DWord
  h2 : DWord
  h3 : DWord
  h4 : DWord
  deriving DecidableEq, Repr

/-- All the state there is (10_state.md R38), the data memory (R37) with its size (20_memory.md R60), and the model's own two
fields for the host's side: the actions still to come and the values read so far. -/
structure State where
  /-- `CTRL.VARIANT`, any 2-bit value (R22). -/
  ctrl : BitVec 2
  /-- `ADDR` (R24). -/
  addr : Word
  /-- `LEN` (R25). -/
  len : Word
  /-- `SEED1_LO` (R23). -/
  seed1Lo : Word
  /-- `SEED1_HI` (R23). -/
  seed1Hi : Word
  /-- `SEED2_LO` (R23). -/
  seed2Lo : Word
  /-- `SEED2_HI` (R23). -/
  seed2Hi : Word
  /-- `SEED3` (R23). -/
  seed3 : Word
  /-- `SEED4` (R23). -/
  seed4 : Word
  /-- `PHASE`, `STATUS[1:0]` (R28). -/
  phase : Phase
  /-- `AVAR`, `STATUS[3:2]` (R29): never 3, so one of the three variants (log 8). -/
  avar : Variant
  /-- `FAULT`, `STATUS[4]` (R34). -/
  fault : Bool
  /-- `CAUSE`, `STATUS[11:8]` (R34). -/
  cause : BitVec 4
  /-- `H[1..4]` (R30). -/
  lanes : Lanes
  /-- `SIZE` (R32). -/
  size : DWord
  /-- `BUF[0..15]` (R31). -/
  buf : Vector Byte 16
  /-- `COUNT` (R31). -/
  count : BitVec 4
  /-- The data memory (R37): addresses rising, no entry equal to `Config.blankByte`. -/
  mem : List Host.Cell
  /-- `MEM_SIZE - 1` (20_memory.md R60); nothing changes it (log 4). -/
  memLast : Word
  /-- The host's actions still to come, oldest first: the "program" of R21 (the model's own field, log 1). -/
  pending : List HostAction
  /-- What the host has read so far, newest first (the model's own field, log 2). -/
  replies : List Reply
  deriving DecidableEq, Repr

/-- Why a step can stop. Every protocol violation of 60_exceptions.md is a next state, not one of these. -/
inductive Fault where
  /-- Raised by a host read or write of a data-memory address at or above `MEM_SIZE`, an address that does not exist
  (20_memory.md R60). Safe: the model stops where the spec says nothing (log 6). -/
  | hostAddressAbsent
  deriving DecidableEq, Repr

/-- Why a step can be refused. -/
inductive Refusal where
  /-- An instruction without a meaning; no arm of `exec` answers this. Safe. -/
  | notModelled (mnemonic : String)
  deriving DecidableEq, Repr

/-- The machine right after power-on reset: every element at the value of 10_state.md R38 and 70_reset_and_hazards.md R300.
The memory lists nothing (log 3), its size is the open constant (log 4), and no host action is waiting (log 1). -/
def State.reset : State where
  ctrl := 0#2
  addr := 0#32
  len := 0#32
  seed1Lo := 0#32
  seed1Hi := 0#32
  seed2Lo := 0#32
  seed2Hi := 0#32
  seed3 := 0#32
  seed4 := 0#32
  phase := .idle
  avar := .x86_32
  fault := false
  cause := 0#4
  lanes := ⟨0#64, 0#64, 0#64, 0#64⟩
  size := 0#64
  buf := Vector.replicate 16 0#8
  count := 0#4
  mem := []
  memLast := Config.memLast
  pending := []
  replies := []

end Sys2Proof.Machine
end

