-- ==== Sys2Proof/Machine/Hash128x64.lean ====
section
/-! DEFINITION. Block Hasher variant `x64_128`: block step, remainder, finalize, result (43_x64_128.md R160 to R164). Its
constants are the spec's own, supplied from general knowledge (log 9). -/

namespace Sys2Proof.Machine

/-- Lane 1 of `x64_128` (43_x64_128.md R160). -/
def params1X64_128 : LaneParams 64 :=
  ⟨0x87c37b91114253d5#64, 0x4cf5ad432745937f#64, 31, 27, 0x0000000052dce729#64⟩

/-- Lane 2 of `x64_128` (R160). -/
def params2X64_128 : LaneParams 64 :=
  ⟨0x4cf5ad432745937f#64, 0x87c37b91114253d5#64, 33, 31, 0x0000000038495ab5#64⟩

/-- `BlockStep_x64_128`: lane 1 mixes with the old lane 2, then lane 2 with the new lane 1 (43_x64_128.md R161,
90_conflicts.md C7). -/
def blockStepX64_128 (h : Lanes) (blk : List Byte) : Lanes :=
  let h1 := laneUpdate params1X64_128 h.h1 (blockWord64 blk 0) h.h2
  let h2 := laneUpdate params2X64_128 h.h2 (blockWord64 blk 1) h1
  { h with h1 := h1, h2 := h2 }

/-- One lane of the remainder step, folded when it has at least one byte (43_x64_128.md R162). -/
def foldPart64 (p : LaneParams 64) (h : DWord) (part : List Byte) : DWord :=
  if 1 ≤ part.length then laneFold p h (word64 part) else h

/-- `Remainder_x64_128`: lane 1 owns bytes 0..7, lane 2 bytes 8..15 (R162). -/
def remainderX64_128 (h : Lanes) (t : List Byte) : Lanes :=
  { h with
    h1 := foldPart64 params1X64_128 h.h1 (slice t 0 8)
    h2 := foldPart64 params2X64_128 h.h2 (slice t 8 16) }

/-- `Finalize_x64_128`, with all 64 bits of `SIZE` exclusive-ored into both lanes (43_x64_128.md R163, 90_conflicts.md C2). -/
def finalizeX64_128 (h : Lanes) (size : DWord) : Lanes :=
  let a := h.h1 ^^^ size
  let b := h.h2 ^^^ size
  let a := a + b
  let b := b + a
  let a := finalMix64 a
  let b := finalMix64 b
  let a := a + b
  let b := b + a
  { h with h1 := a, h2 := b }

/-- `Result_x64_128` as bytes (43_x64_128.md R164). -/
def resultX64_128 (h : Lanes) : List Byte := unpackLE h.h1.toNat 8 ++ unpackLE h.h2.toNat 8

/-- `RESULTn` for `x64_128`: the halves of the two lanes, low half first (R164). -/
def resultWordX64_128 (h : Lanes) : Nat → Word
  | 0 => lo32 h.h1
  | 1 => hi32 h.h1
  | 2 => lo32 h.h2
  | _ => hi32 h.h2

end Sys2Proof.Machine
end

