-- ==== Sys2Proof/Machine/Hash128x86.lean ====
section
/-! DEFINITION. Block Hasher variant `x86_128`: block step, remainder, finalize, result (42_x86_128.md R140 to R144). Its
constants are the spec's own, supplied from general knowledge (log 9). -/

namespace Sys2Proof.Machine

/-- Lane 1 of `x86_128` (42_x86_128.md R140). -/
def params1X86_128 : LaneParams 32 := ⟨0x239b961b#32, 0xab0e9789#32, 15, 19, 0x561ccd1b#32⟩

/-- Lane 2 of `x86_128` (R140). -/
def params2X86_128 : LaneParams 32 := ⟨0xab0e9789#32, 0x38b34ae5#32, 16, 17, 0x0bcaa747#32⟩

/-- Lane 3 of `x86_128` (R140). -/
def params3X86_128 : LaneParams 32 := ⟨0x38b34ae5#32, 0xa1e38b93#32, 17, 15, 0x96cd1c35#32⟩

/-- Lane 4 of `x86_128` (R140). -/
def params4X86_128 : LaneParams 32 := ⟨0xa1e38b93#32, 0x239b961b#32, 18, 13, 0x32ac3b17#32⟩

/-- `BlockStep_x86_128`: lanes 1, 2, 3, 4 in order, lane 4 mixing with the already updated lane 1 (42_x86_128.md R141,
90_conflicts.md C3). -/
def blockStepX86_128 (h : Lanes) (blk : List Byte) : Lanes :=
  let h1 := laneUpdate params1X86_128 (lo32 h.h1) (blockWord32 blk 0) (lo32 h.h2)
  let h2 := laneUpdate params2X86_128 (lo32 h.h2) (blockWord32 blk 1) (lo32 h.h3)
  let h3 := laneUpdate params3X86_128 (lo32 h.h3) (blockWord32 blk 2) (lo32 h.h4)
  let h4 := laneUpdate params4X86_128 (lo32 h.h4) (blockWord32 blk 3) h1
  ⟨zext64 h1, zext64 h2, zext64 h3, zext64 h4⟩

/-- One lane of the remainder step: folded if and only if at least one of its bytes is present (42_x86_128.md R142,
90_conflicts.md C4). -/
def foldPart32 (p : LaneParams 32) (h : DWord) (part : List Byte) : DWord :=
  if 1 ≤ part.length then zext64 (laneFold p (lo32 h) (word32 part)) else h

/-- `Remainder_x86_128`: lane `j` owns bytes `4(j-1) .. 4j-1` (R142). -/
def remainderX86_128 (h : Lanes) (t : List Byte) : Lanes :=
  ⟨foldPart32 params1X86_128 h.h1 (slice t 0 4), foldPart32 params2X86_128 h.h2 (slice t 4 8),
    foldPart32 params3X86_128 h.h3 (slice t 8 12), foldPart32 params4X86_128 h.h4 (slice t 12 16)⟩

/-- Four 32-bit lane values on their way through finalize. -/
structure Quad where
  a : Word
  b : Word
  c : Word
  d : Word
  deriving DecidableEq, Repr

/-- `MixAdd`: the six additions, each reading the lanes as updated so far (42_x86_128.md R143, 90_conflicts.md C6). -/
def mixAdd32 (q : Quad) : Quad :=
  let a := q.a + q.b
  let a := a + q.c
  let a := a + q.d
  ⟨a, q.b + a, q.c + a, q.d + a⟩

/-- `Finalize_x86_128`, with `SIZE[31:0]` exclusive-ored into each lane (R143, 90_conflicts.md C1). -/
def finalizeX86_128 (h : Lanes) (size : DWord) : Lanes :=
  let l := lo32 size
  let q := mixAdd32 ⟨lo32 h.h1 ^^^ l, lo32 h.h2 ^^^ l, lo32 h.h3 ^^^ l, lo32 h.h4 ^^^ l⟩
  let q := mixAdd32 ⟨finalMix32 q.a, finalMix32 q.b, finalMix32 q.c, finalMix32 q.d⟩
  ⟨zext64 q.a, zext64 q.b, zext64 q.c, zext64 q.d⟩

/-- `Result_x86_128` as bytes (42_x86_128.md R144). -/
def resultX86_128 (h : Lanes) : List Byte :=
  unpackLE (lo32 h.h1).toNat 4 ++ unpackLE (lo32 h.h2).toNat 4
    ++ unpackLE (lo32 h.h3).toNat 4 ++ unpackLE (lo32 h.h4).toNat 4

/-- `RESULTn = H[n+1][31:0]` for `x86_128` (R144). -/
def resultWordX86_128 (h : Lanes) : Nat → Word
  | 0 => lo32 h.h1
  | 1 => lo32 h.h2
  | 2 => lo32 h.h3
  | _ => lo32 h.h4

end Sys2Proof.Machine
end

