-- ==== Sys2Proof/Machine/Hash32.lean ====
section
/-! DEFINITION. Block Hasher variant `x86_32`: block step, remainder, finalize, result (41_x86_32.md R120 to R124). -/

namespace Sys2Proof.Machine

/-- The constants of `x86_32` (41_x86_32.md R120). -/
def paramsX86_32 : LaneParams 32 := ⟨0xcc9e2d51#32, 0x1b873593#32, 15, 13, 0xe6546b64#32⟩

/-- `BlockStep_x86_32` (41_x86_32.md R121). -/
def blockStepX86_32 (h : Lanes) (blk : List Byte) : Lanes :=
  { h with h1 := zext64 (laneUpdate paramsX86_32 (lo32 h.h1) (blockWord32 blk 0) 0#32) }

/-- `Remainder_x86_32` (41_x86_32.md R122). -/
def remainderX86_32 (h : Lanes) (t : List Byte) : Lanes :=
  if 1 ≤ t.length then { h with h1 := zext64 (laneFold paramsX86_32 (lo32 h.h1) (word32 t)) } else h

/-- `Finalize_x86_32`, with `SIZE[31:0]` (41_x86_32.md R123). -/
def finalizeX86_32 (h : Lanes) (size : DWord) : Lanes :=
  { h with h1 := zext64 (finalMix32 (lo32 h.h1 ^^^ lo32 size)) }

/-- `Result_x86_32` as bytes (41_x86_32.md R124). -/
def resultX86_32 (h : Lanes) : List Byte := unpackLE (lo32 h.h1).toNat 4

/-- `RESULTn` for `x86_32`: `H[1][31:0]`, then zeros (R124). -/
def resultWordX86_32 (h : Lanes) : Nat → Word
  | 0 => lo32 h.h1
  | _ => 0#32

end Sys2Proof.Machine
end

