-- ==== Sys2Proof/Machine/Hasher.lean ====
section
/-! DEFINITION. Variant dispatch (44_stream_commands.md R185), the seed mapping (10_state.md R23) and a run of block steps. -/

namespace Sys2Proof.Machine

/-- `B`, the block size in bytes (44_stream_commands.md R185, 10_state.md R29). -/
def blockBytes : Variant → Nat
  | .x86_32 => 4
  | .x86_128 => 16
  | .x64_128 => 16

/-- `RB`, the result size in bytes (R185, R29). -/
def resultBytes : Variant → Nat
  | .x86_32 => 4
  | .x86_128 => 16
  | .x64_128 => 16

/-- `BlockStep(blk)` (R185). -/
def blockStep : Variant → Lanes → List Byte → Lanes
  | .x86_32 => blockStepX86_32
  | .x86_128 => blockStepX86_128
  | .x64_128 => blockStepX64_128

/-- `Remainder(t)` (R185). -/
def remainder : Variant → Lanes → List Byte → Lanes
  | .x86_32 => remainderX86_32
  | .x86_128 => remainderX86_128
  | .x64_128 => remainderX64_128

/-- `Finalize()` (R185). -/
def finalize : Variant → Lanes → DWord → Lanes
  | .x86_32 => finalizeX86_32
  | .x86_128 => finalizeX86_128
  | .x64_128 => finalizeX64_128

/-- `Result()` as bytes (R185). -/
def result : Variant → Lanes → List Byte
  | .x86_32 => resultX86_32
  | .x86_128 => resultX86_128
  | .x64_128 => resultX64_128

/-- Word `n` of the result, as `RESULTn` shows it (10_state.md R33). -/
def resultWord : Variant → Lanes → Nat → Word
  | .x86_32 => resultWordX86_32
  | .x86_128 => resultWordX86_128
  | .x64_128 => resultWordX64_128

/-- The block steps of the first `n` whole blocks of a byte list, in order. -/
def blockSteps (v : Variant) : Nat → List Byte → Lanes → Lanes
  | 0, _, h => h
  | n + 1, bytes, h =>
    blockSteps v n (bytes.drop (blockBytes v)) (blockStep v h (bytes.take (blockBytes v)))

/-- The lanes START loads from the seed registers (10_state.md R23; R125, R145, R165). -/
def seedLanes (v : Variant) (s : State) : Lanes :=
  match v with
  | .x86_32 => ⟨zext64 s.seed1Lo, 0#64, 0#64, 0#64⟩
  | .x86_128 => ⟨zext64 s.seed1Lo, zext64 s.seed2Lo, zext64 s.seed3, zext64 s.seed4⟩
  | .x64_128 => ⟨join64 s.seed1Hi s.seed1Lo, join64 s.seed2Hi s.seed2Lo, 0#64, 0#64⟩

end Sys2Proof.Machine
end

