-- ==== Sys2Proof/Machine/Flags.lean ====
section
/-! DEFINITION. The codes of the fields of `STATUS` and the word it reads as. MH3BP has no condition codes: these are its only
status bits (10_state.md R27, R28, R29, R34, R36; 60_exceptions.md R270). -/

namespace Sys2Proof.Machine

/-- The code of a phase in `STATUS[1:0]` (10_state.md R28). -/
def phaseCode : Phase → BitVec 2
  | .idle => 0#2
  | .absorb => 1#2
  | .tail => 2#2
  | .final => 3#2

/-- The code of a variant in `CTRL[1:0]` and `STATUS[3:2]` (00_scope.md R2). -/
def variantCode : Variant → BitVec 2
  | .x86_32 => 0#2
  | .x86_128 => 1#2
  | .x64_128 => 2#2

/-- The variant a code of `CTRL.VARIANT` selects; 3 selects none (10_state.md R22). -/
def variantOfCode (c : BitVec 2) : Option Variant :=
  if c = 0#2 then some .x86_32
  else if c = 1#2 then some .x86_128
  else if c = 2#2 then some .x64_128
  else none

/-- The code of a cause in `STATUS[11:8]` (60_exceptions.md R270). -/
def causeCode : Cause → BitVec 4
  | .remTooLong => 1#4
  | .remTwice => 2#4
  | .finTwice => 3#4
  | .mutateAfterFinal => 4#4
  | .blockAfterRem => 5#4
  | .notStarted => 6#4
  | .bufferNotEmpty => 7#4
  | .resultNotReady => 8#4
  | .illegalCmd => 9#4
  | .badVariant => 10#4
  | .memRange => 11#4
  | .badReg => 12#4

/-- The `FAULT` bit (10_state.md R27). -/
def faultBit (b : Bool) : BitVec 1 := if b then 1#1 else 0#1

/-- `STATUS` as a read returns it: `PHASE | AVAR << 2 | FAULT << 4 | CAUSE << 8` (46_register_access.md R248). -/
def statusWord (s : State) : Word :=
  (phaseCode s.phase).setWidth 32
    ||| (variantCode s.avar).setWidth 32 <<< 2
    ||| (faultBit s.fault).setWidth 32 <<< 4
    ||| s.cause.setWidth 32 <<< 8

end Sys2Proof.Machine
end

