-- ==== Sys2Proof/Machine/Ops.lean ====
section
/-! DEFINITION. The operations the meanings share: bytes of the data memory, bytes of the remainder buffer, raising a fault,
running a command behind its checks, reset, and handing a value back to the host. -/

namespace Sys2Proof.Machine

/-- The canonical form of a data memory: addresses rise, and no entry says what an unlisted address says anyway. -/
abbrev Memory.wf (m : List Host.Cell) : Prop :=
  m.Pairwise (fun x y => x.1 < y.1) ∧ ∀ c ∈ m, c.2 ≠ Config.blankByte

/-- One byte of the data memory (20_memory.md R67: a read returns the byte last written at that address). -/
def loadByte : List Host.Cell → Nat → Byte
  | [], _ => Config.blankByte
  | (k, v) :: rest, a => if k = a then v else loadByte rest a

/-- The entry of an address in canonical form: none when it says what an unlisted address says. -/
def cellOf (a : Nat) (v : Byte) : List Host.Cell := if v = Config.blankByte then [] else [(a, v)]

/-- Write one byte of the data memory, keeping the canonical form. -/
def storeByte : List Host.Cell → Nat → Byte → List Host.Cell
  | [], a, v => cellOf a v
  | (k, w) :: rest, a, v =>
    if k < a then (k, w) :: storeByte rest a v
    else if k = a then cellOf a v ++ rest
    else cellOf a v ++ (k, w) :: rest

/-- `MemRead(addr, n)` (00_scope.md R11): bytes `addr, addr+1, ...`, on mathematical integers. -/
def memRead (m : List Host.Cell) (a : Nat) : Nat → List Byte
  | 0 => []
  | n + 1 => loadByte m a :: memRead m (a + 1) n

/-- `MemWrite(addr, n, bytes)` with `n` the length of the list (R11). -/
def memWrite (m : List Host.Cell) (a : Nat) : List Byte → List Host.Cell
  | [] => m
  | b :: bs => memWrite (storeByte m a b) (a + 1) bs

/-- `MEM_SIZE` (20_memory.md R60). -/
def memSize (s : State) : Nat := s.memLast.toNat + 1

/-- Sixteen buffer bytes from a list, zero beyond its end. -/
def bufOfList (l : List Byte) : Vector Byte 16 := Vector.ofFn fun i => l.getD i.val 0#8

/-- `BUF[k .. k+len(data)) <- data`; every other byte of `BUF` as before (44_stream_commands.md R182). -/
def bufWrite (buf : Vector Byte 16) (k : Nat) (data : List Byte) : Vector Byte 16 :=
  bufOfList (buf.toList.take k ++ data ++ buf.toList.drop (k + data.length))

/-- `BUF[0 .. n)` (R182, R183). -/
def bufRead (buf : Vector Byte 16) (n : Nat) : List Byte := buf.toList.take n

/-- `raise <Cause>`: latch the first fault since reset (60_exceptions.md R271). It transfers no control and saves nothing
(R276). There is no return from it (R278): only `applyReset` clears it. -/
def raise (c : Cause) (s : State) : State :=
  if s.fault then s else { s with fault := true, cause := causeCode c }

/-- Raise a cause if there is one. -/
def raiseIf : Option Cause → State → State
  | some c, s => raise c s
  | none, s => s

/-- Run a command: not at all while `FAULT` = 1; if one of its checks fails, only the fault; else its effect
(60_exceptions.md R272, 44_stream_commands.md preamble). -/
def command (cause : Option Cause) (effect : State → State) (s : State) : Host.Outcome State Fault Refusal :=
  .next (if s.fault then s else
    match cause with
    | some c => raise c s
    | none => effect s)

/-- The reset input `RST`: every element of 10_state.md R38 at its reset value, the data memory unchanged
(70_reset_and_hazards.md R300, R303). The host keeps its own program and what it has read (log 1, log 2). -/
def applyReset (s : State) : State :=
  { State.reset with mem := s.mem, memLast := s.memLast, pending := s.pending, replies := s.replies }

/-- Hand a value back to the host. -/
def reply (r : Reply) (s : State) : State := { s with replies := r :: s.replies }

end Sys2Proof.Machine
end

