-- ==== Sys2Proof/Machine/Operands.lean ====
section
/-! DEFINITION. Operand assembly (30_encoding.md R83), the checks of each command and their order (60_exceptions.md R274). -/

namespace Sys2Proof.Machine

/-- `n`, the number of data-memory bytes a command touches (30_encoding.md R83, 20_memory.md R60). -/
def bytesTouched (i : Instr) (s : State) : Nat :=
  match i with
  | .start => 0
  | .put => s.len.toNat
  | .finish => 0
  | .hash => s.len.toNat
  | .blkPut => blockBytes s.avar
  | .blkPutn => s.len.toNat * blockBytes s.avar
  | .blkRem => s.len.toNat
  | .blkFin => 0
  | .get => resultBytes s.avar

/-- The bytes a reading command takes: `MemRead(ADDR, n)` (R83). -/
def operandBytes (i : Instr) (s : State) : List Byte :=
  memRead s.mem s.addr.toNat (bytesTouched i s)

/-- The phase check of the table of 60_exceptions.md R274. -/
def phaseCause (i : Instr) (p : Phase) : Option Cause :=
  match i, p with
  | .start, _ => none
  | .hash, _ => none
  | .put, .idle => some .notStarted
  | .put, .absorb => none
  | .put, .tail => some .blockAfterRem
  | .put, .final => some .mutateAfterFinal
  | .finish, .idle => some .notStarted
  | .finish, .absorb => none
  | .finish, .tail => none
  | .finish, .final => some .finTwice
  | .blkPut, .idle => some .notStarted
  | .blkPut, .absorb => none
  | .blkPut, .tail => some .blockAfterRem
  | .blkPut, .final => some .mutateAfterFinal
  | .blkPutn, .idle => some .notStarted
  | .blkPutn, .absorb => none
  | .blkPutn, .tail => some .blockAfterRem
  | .blkPutn, .final => some .mutateAfterFinal
  | .blkRem, .idle => some .notStarted
  | .blkRem, .absorb => none
  | .blkRem, .tail => some .remTwice
  | .blkRem, .final => some .mutateAfterFinal
  | .blkFin, .idle => some .notStarted
  | .blkFin, .absorb => none
  | .blkFin, .tail => none
  | .blkFin, .final => some .finTwice
  | .get, .final => none
  | .get, _ => some .resultNotReady

/-- `E_BUFFER_NOT_EMPTY`: the four commands that feed or finalize the Block Hasher need `COUNT = 0` (45_block_commands.md
R215). -/
def countCause (i : Instr) (s : State) : Option Cause :=
  match i with
  | .blkPut | .blkPutn | .blkRem | .blkFin => if s.count ≠ 0#4 then some .bufferNotEmpty else none
  | .start | .put | .finish | .hash | .get => none

/-- The operand checks: `E_BAD_VARIANT` for START and HASH, `E_REM_TOO_LONG` for BLK_REM (60_exceptions.md R274). -/
def operandCause (i : Instr) (s : State) : Option Cause :=
  match i with
  | .start | .hash => if (variantOfCode s.ctrl).isNone then some .badVariant else none
  | .blkRem => if blockBytes s.avar ≤ s.len.toNat then some .remTooLong else none
  | .put | .finish | .blkPut | .blkPutn | .blkFin | .get => none

/-- `E_MEM_RANGE`: `n > 0` and `ADDR + n > MEM_SIZE`, on mathematical integers (20_memory.md R66). -/
def rangeCause (n : Nat) (s : State) : Option Cause :=
  if 0 < n ∧ memSize s < s.addr.toNat + n then some .memRange else none

/-- The first of several checks that fails. -/
def firstCause : List (Option Cause) → Option Cause
  | [] => none
  | some c :: _ => some c
  | none :: rest => firstCause rest

/-- The check sequence of a command, stopping at the first failure: phase, `COUNT`, operand, memory range
(60_exceptions.md R274, steps 3 to 6). -/
def commandCause (i : Instr) (s : State) : Option Cause :=
  firstCause [phaseCause i s.phase, countCause i s, operandCause i s, rangeCause (bytesTouched i s) s]

end Sys2Proof.Machine
end

