-- ==== Sys2Proof/Machine/Stream.lean ====
section
/-! DEFINITION. The stream commands START, PUT, FINISH and HASH (44_stream_commands.md R180 to R184). -/

namespace Sys2Proof.Machine

/-- The body of START with the variant to latch (44_stream_commands.md R180). -/
def startWith (v : Variant) (s : State) : State :=
  { s with
    avar := v
    lanes := seedLanes v s
    size := 0#64
    count := 0#4
    buf := Vector.replicate 16 0#8
    phase := .absorb }

/-- The body of START. Code 3 never reaches it: `E_BAD_VARIANT` is raised first (R180). -/
def startBody (s : State) : State :=
  match variantOfCode s.ctrl with
  | some v => startWith v s
  | none => s

/-- Submit one block of the stream: `BlockStep(blk)` and `SIZE <- SIZE + B` (R182). -/
def submitBlock (blk : List Byte) (s : State) : State :=
  { s with
    lanes := blockStep s.avar s.lanes blk
    size := s.size + BitVec.ofNat 64 (blockBytes s.avar) }

/-- Submit the first `n` whole blocks of a byte list (R182, the loop). -/
def submitBlocks : Nat → List Byte → State → State
  | 0, _, s => s
  | n + 1, bytes, s =>
    submitBlocks n (bytes.drop (blockBytes s.avar)) (submitBlock (bytes.take (blockBytes s.avar)) s)

/-- Whole-block strides straight from the bytes, then the tail into the empty buffer (R182, the last five lines). -/
def absorbWhole (bytes : List Byte) (s : State) : State :=
  let nb := bytes.length / blockBytes s.avar
  let s := submitBlocks nb bytes s
  let tail := bytes.drop (nb * blockBytes s.avar)
  { s with buf := bufWrite s.buf 0 tail, count := BitVec.ofNat 4 tail.length }

/-- The body of PUT on the bytes of a chunk (R182). -/
def absorb (data : List Byte) (s : State) : State :=
  let count := s.count.toNat
  let b := blockBytes s.avar
  if count + data.length < b then
    { s with buf := bufWrite s.buf count data, count := BitVec.ofNat 4 (count + data.length) }
  else if count ≠ 0 then
    let fill := b - count
    let s := { s with buf := bufWrite s.buf count (data.take fill) }
    absorbWhole (data.drop fill) (submitBlock (bufRead s.buf b) s)
  else absorbWhole data s

/-- The body of PUT: the chunk is `MemRead(ADDR, LEN)` (R182). -/
def putBody (s : State) : State := absorb (operandBytes .put s) s

/-- The remainder step of FINISH, skipped when the buffer is empty (44_stream_commands.md R183). -/
def foldBuffer (s : State) : State :=
  if s.count ≠ 0#4 then
    { s with
      lanes := remainder s.avar s.lanes (bufRead s.buf s.count.toNat)
      size := s.size + s.count.setWidth 64
      count := 0#4 }
  else s

/-- `Finalize()` and `PHASE <- FINAL` (R183, R213). -/
def finalizeState (s : State) : State :=
  { s with lanes := finalize s.avar s.lanes s.size, phase := .final }

/-- The body of FINISH (R183). -/
def finishBody (s : State) : State := finalizeState (foldBuffer s)

/-- The body of HASH: the bodies of START, PUT and FINISH in one step (44_stream_commands.md R184). -/
def hashBody (s : State) : State := finishBody (putBody (startBody s))

/-- START, CMD word 0x00000001 (44_stream_commands.md R180). -/
def execStart (s : State) : Host.Outcome State Fault Refusal := command (commandCause .start s) startBody s

/-- PUT, CMD word 0x00000002 (44_stream_commands.md R182). -/
def execPut (s : State) : Host.Outcome State Fault Refusal := command (commandCause .put s) putBody s

/-- FINISH, CMD word 0x00000003 (44_stream_commands.md R183). -/
def execFinish (s : State) : Host.Outcome State Fault Refusal := command (commandCause .finish s) finishBody s

/-- HASH, CMD word 0x00000004 (44_stream_commands.md R184). -/
def execHash (s : State) : Host.Outcome State Fault Refusal := command (commandCause .hash s) hashBody s

end Sys2Proof.Machine
end

