-- ==== Sys2Proof/Machine/Block.lean ====
section
/-! DEFINITION. The block commands BLK_PUT, BLK_PUTN, BLK_REM, BLK_FIN and GET (45_block_commands.md R210 to R214). -/

namespace Sys2Proof.Machine

/-- The body of BLK_PUT: one block step, `SIZE` unchanged (45_block_commands.md R210). -/
def blkPutBody (s : State) : State :=
  { s with lanes := blockStep s.avar s.lanes (operandBytes .blkPut s) }

/-- The body of BLK_PUTN: `LEN` block steps over contiguous blocks, then one addition to `SIZE` (45_block_commands.md R211). -/
def blkPutnBody (s : State) : State :=
  { s with
    lanes := blockSteps s.avar s.len.toNat (operandBytes .blkPutn s) s.lanes
    size := s.size + BitVec.ofNat 64 (bytesTouched .blkPutn s) }

/-- The body of BLK_REM (45_block_commands.md R212). -/
def blkRemBody (s : State) : State :=
  { s with
    lanes := remainder s.avar s.lanes (operandBytes .blkRem s)
    size := s.size + s.len.setWidth 64
    phase := .tail }

/-- The body of BLK_FIN (45_block_commands.md R213). -/
def blkFinBody (s : State) : State := finalizeState s

/-- The body of GET: `MemWrite(ADDR, RB, Result())`, result byte 0 at `ADDR` (45_block_commands.md R214). -/
def getBody (s : State) : State :=
  { s with mem := memWrite s.mem s.addr.toNat (result s.avar s.lanes) }

/-- BLK_PUT, CMD word 0x00000010 (45_block_commands.md R210). -/
def execBlkPut (s : State) : Host.Outcome State Fault Refusal := command (commandCause .blkPut s) blkPutBody s

/-- BLK_PUTN, CMD word 0x00000011 (45_block_commands.md R211). -/
def execBlkPutn (s : State) : Host.Outcome State Fault Refusal := command (commandCause .blkPutn s) blkPutnBody s

/-- BLK_REM, CMD word 0x00000012 (45_block_commands.md R212). -/
def execBlkRem (s : State) : Host.Outcome State Fault Refusal := command (commandCause .blkRem s) blkRemBody s

/-- BLK_FIN, CMD word 0x00000013 (45_block_commands.md R213). -/
def execBlkFin (s : State) : Host.Outcome State Fault Refusal := command (commandCause .blkFin s) blkFinBody s

/-- GET, CMD word 0x00000020 (45_block_commands.md R214). -/
def execGet (s : State) : Host.Outcome State Fault Refusal := command (commandCause .get s) getBody s

end Sys2Proof.Machine
end

