-- ==== Sys2Proof/Machine/Dispatch.lean ====
section
/-! DEFINITION. One arm per command of the opcode map (30_encoding.md R84): which meaning runs. -/

namespace Sys2Proof.Machine

def exec (i : Instr) (s : State) : Host.Outcome State Fault Refusal :=
  match i with
  | .start => Sys2Proof.Machine.execStart s
  | .put => Sys2Proof.Machine.execPut s
  | .finish => Sys2Proof.Machine.execFinish s
  | .hash => Sys2Proof.Machine.execHash s
  | .blkPut => Sys2Proof.Machine.execBlkPut s
  | .blkPutn => Sys2Proof.Machine.execBlkPutn s
  | .blkRem => Sys2Proof.Machine.execBlkRem s
  | .blkFin => Sys2Proof.Machine.execBlkFin s
  | .get => Sys2Proof.Machine.execGet s

end Sys2Proof.Machine
end

