-- ==== Sys2Proof/Decode.lean ====
section
/-! DEFINITION. From words to commands and from offsets to registers, total on every word and every offset, and the encoders
written from the same tables (30_encoding.md R82 to R86, 10_state.md section 2). -/

namespace Sys2Proof

/-- Why a CMD word is illegal (30_encoding.md R85). Both reasons raise `E_ILLEGAL_CMD`. -/
inductive IllegalWord where
  /-- Bits [31:8] are not all zero. -/
  | reservedBitsSet
  /-- `OPCODE` is none of the nine values of R84. -/
  | unassignedOpcode
  deriving DecidableEq, Repr

/-- `OPCODE`, bits [7:0] of a CMD word (30_encoding.md R82). -/
def opcodeField (w : Word) : BitVec 8 := w.extractLsb' 0 8

/-- The reserved bits [31:8] of a CMD word (R82). -/
def reservedField (w : Word) : BitVec 24 := w.extractLsb' 8 24

/-- One row of the opcode map. -/
structure OpcodeRow where
  opcode : BitVec 8
  command : Instr
  deriving DecidableEq, Repr

/-- The opcode map (30_encoding.md R84). -/
def opcodeMap : List OpcodeRow :=
  [ ⟨0x01#8, .start⟩, ⟨0x02#8, .put⟩, ⟨0x03#8, .finish⟩, ⟨0x04#8, .hash⟩,
    ⟨0x10#8, .blkPut⟩, ⟨0x11#8, .blkPutn⟩, ⟨0x12#8, .blkRem⟩, ⟨0x13#8, .blkFin⟩,
    ⟨0x20#8, .get⟩ ]

/-- The decode function (30_encoding.md R86): a command, or the name of what is illegal about the word. -/
def decode (w : Word) : Except IllegalWord Instr :=
  if reservedField w ≠ 0#24 then .error .reservedBitsSet
  else
    match opcodeMap.find? (fun row => row.opcode = opcodeField w) with
    | some row => .ok row.command
    | none => .error .unassignedOpcode

/-- The OPCODE of each command (30_encoding.md R84). -/
def opcodeOf : Instr → BitVec 8
  | .start => 0x01#8
  | .put => 0x02#8
  | .finish => 0x03#8
  | .hash => 0x04#8
  | .blkPut => 0x10#8
  | .blkPutn => 0x11#8
  | .blkRem => 0x12#8
  | .blkFin => 0x13#8
  | .get => 0x20#8

/-- The CMD word of a command: its OPCODE zero-extended to 32 bits (R84). -/
def encode (i : Instr) : Word := (opcodeOf i).setWidth 32

/-- The decoder on a word numbered as spec/opcode_table.json numbers it. Every command is one 32-bit word (R81), so a number
that does not fit in 32 bits is no command. -/
def decodeTableWord (nbits w : Nat) : Option Instr :=
  if w % 2 ^ nbits < 2 ^ 32 then (decode (BitVec.ofNat 32 (w % 2 ^ nbits))).toOption else none

/-- The byte offset of each register in the window (10_state.md section 2, 46_register_access.md R245). -/
def offsetOf : Reg → BitVec 8
  | .ctrl => 0x00#8
  | .status => 0x04#8
  | .addr => 0x08#8
  | .len => 0x0C#8
  | .cmd => 0x10#8
  | .sizeLo => 0x14#8
  | .sizeHi => 0x18#8
  | .seed1Lo => 0x20#8
  | .seed1Hi => 0x24#8
  | .seed2Lo => 0x28#8
  | .seed2Hi => 0x2C#8
  | .seed3 => 0x30#8
  | .seed4 => 0x34#8
  | .result0 => 0x40#8
  | .result1 => 0x44#8
  | .result2 => 0x48#8
  | .result3 => 0x4C#8

/-- The registers in the order of their offsets (10_state.md section 2). -/
def registerMap : List Reg :=
  [ .ctrl, .status, .addr, .len, .cmd, .sizeLo, .sizeHi,
    .seed1Lo, .seed1Hi, .seed2Lo, .seed2Hi, .seed3, .seed4,
    .result0, .result1, .result2, .result3 ]

/-- The register at an offset; none where the window is unmapped (46_register_access.md R245). -/
def registerAt (o : BitVec 8) : Option Reg :=
  registerMap.find? (fun r => offsetOf r = o)

end Sys2Proof
end

