-- ==== Sys2Proof/Machine/Registers.lean ====
section
/-! DEFINITION. What each register reads as and what a plain write does to it (46_register_access.md R242 to R249). -/

namespace Sys2Proof.Machine

/-- The word a register reads as when its read does not fault (46_register_access.md R247 to R249). Reserved bits are 0. -/
def registerValue (r : Reg) (s : State) : Word :=
  match r with
  | .ctrl => s.ctrl.setWidth 32
  | .status => statusWord s
  | .addr => s.addr
  | .len => s.len
  | .cmd => 0#32
  | .sizeLo => lo32 s.size
  | .sizeHi => hi32 s.size
  | .seed1Lo => s.seed1Lo
  | .seed1Hi => s.seed1Hi
  | .seed2Lo => s.seed2Lo
  | .seed2Hi => s.seed2Hi
  | .seed3 => s.seed3
  | .seed4 => s.seed4
  | .result0 => resultWord s.avar s.lanes 0
  | .result1 => resultWord s.avar s.lanes 1
  | .result2 => resultWord s.avar s.lanes 2
  | .result3 => resultWord s.avar s.lanes 3

/-- The cause a read of a register raises: `RESULTn` outside FINAL (46_register_access.md R247). -/
def readCause (r : Reg) (s : State) : Option Cause :=
  match r with
  | .result0 | .result1 | .result2 | .result3 =>
    if s.phase ≠ .final then some .resultNotReady else none
  | .ctrl | .status | .addr | .len | .cmd | .sizeLo | .sizeHi
  | .seed1Lo | .seed1Hi | .seed2Lo | .seed2Hi | .seed3 | .seed4 => none

/-- `RD` of a mapped register: a faulting read returns 0 (R241, R247). -/
def readRegister (r : Reg) (s : State) : State :=
  match readCause r s with
  | some c => reply (.word 0#32) (raise c s)
  | none => reply (.word (registerValue r s)) s

/-- The cause a write of a register raises: `SIZE_LO` and `SIZE_HI` in IDLE and FINAL (46_register_access.md R246). -/
def writeCause (r : Reg) (s : State) : Option Cause :=
  match r with
  | .sizeLo | .sizeHi =>
    match s.phase with
    | .idle => some .notStarted
    | .final => some .mutateAfterFinal
    | .absorb | .tail => none
  | .ctrl | .status | .addr | .len | .cmd
  | .seed1Lo | .seed1Hi | .seed2Lo | .seed2Hi | .seed3 | .seed4
  | .result0 | .result1 | .result2 | .result3 => none

/-- What a write stores (R242, R243, R246); nothing into the read-only registers (R244). `CMD` is not storage (10_state.md R26):
a write of it runs a command instead (R250). -/
def storeRegister (r : Reg) (d : Word) (s : State) : State :=
  match r with
  | .ctrl => { s with ctrl := d.extractLsb' 0 2 }
  | .status => s
  | .addr => { s with addr := d }
  | .len => { s with len := d }
  | .cmd => s
  | .sizeLo => { s with size := join64 (hi32 s.size) d }
  | .sizeHi => { s with size := join64 d (lo32 s.size) }
  | .seed1Lo => { s with seed1Lo := d }
  | .seed1Hi => { s with seed1Hi := d }
  | .seed2Lo => { s with seed2Lo := d }
  | .seed2Hi => { s with seed2Hi := d }
  | .seed3 => { s with seed3 := d }
  | .seed4 => { s with seed4 := d }
  | .result0 => s
  | .result1 => s
  | .result2 => s
  | .result3 => s

/-- `WR` of a mapped register other than `CMD`: the fault, or the store. -/
def writeRegister (r : Reg) (d : Word) (s : State) : State :=
  match writeCause r s with
  | some c => raise c s
  | none => storeRegister r d s

/-- The host's physical address of a register: `REG_BASE` and its offset (20_memory.md R61, 60_exceptions.md R283). -/
def hostAddress (r : Reg) : Nat := Config.regBase + (offsetOf r).toNat

end Sys2Proof.Machine
end

