-- ==== Sys2Proof/WellFormed.lean ====
section
/-! DEFINITION. Which host accesses are well-formed: the admission tests of 46_register_access.md R240 and R245, one check
each. A command has no operand field (30_encoding.md R83), so every term of `Instr` is well-formed. -/

namespace Sys2Proof

/-- Every command term is well-formed: no command carries an operand that could be out of range (30_encoding.md R83). -/
def Instr.wellFormed : Instr → Bool
  | .start | .put | .finish | .hash | .blkPut | .blkPutn | .blkRem | .blkFin | .get => true

/-- "Only 4 is legal" for the width of an access (30_encoding.md R80). -/
def BusAccess.widthOk (b : BusAccess) : Bool := b.width == 4

/-- The offset is a multiple of 4 (46_register_access.md R240). -/
def BusAccess.aligned (b : BusAccess) : Bool := b.offset.toNat % 4 == 0

/-- A register stands at the offset (R240). -/
def BusAccess.mapped (b : BusAccess) : Bool := (registerAt b.offset).isSome

/-- The access passes the admission of R240. -/
def BusAccess.wellFormed (b : BusAccess) : Bool := b.widthOk && b.aligned && b.mapped

/-- The check of a whole host action: only register accesses can be malformed. -/
def HostAction.wellFormed : HostAction → Bool
  | .access b => b.wellFormed
  | .memWrite _ _ | .memRead _ | .rst => true

end Sys2Proof
end

