-- ==== Sys2Proof/Machine/Bus.lean ====
section
/-! DEFINITION. One action of the host: a register-bus access with its admission (46_register_access.md R240, R241, R250), an
access of its own to the data memory (20_memory.md R60, R72), or reset (70_reset_and_hazards.md R300). -/

namespace Sys2Proof.Machine

/-- `WR CMD, w`: decode and perform the command, or raise `E_ILLEGAL_CMD` (46_register_access.md R250). -/
def writeCmd (w : Word) (s : State) : Host.Outcome State Fault Refusal :=
  match decode w with
  | .ok i => exec i s
  | .error _ => .next (raise .illegalCmd s)

/-- The register an admitted access reaches (46_register_access.md R240): none for a wrong width, a misaligned offset or an
unmapped one. -/
def admittedRegister (b : BusAccess) : Option Reg :=
  if b.widthOk && b.aligned then registerAt b.offset else none

/-- An access that admission turns away: `E_BAD_REG`, and a read returns 0 (R240, R245). -/
def badAccess (k : AccessKind) (s : State) : State :=
  match k with
  | .rd => reply (.word 0#32) (raise .badReg s)
  | .wr => raise .badReg s

/-- An admitted access (R242 to R250). -/
def admittedAccess (k : AccessKind) (r : Reg) (d : Word) (s : State) : Host.Outcome State Fault Refusal :=
  match k, r with
  | .rd, r => .next (readRegister r s)
  | .wr, .cmd => writeCmd d s
  | .wr, r => .next (writeRegister r d s)

/-- One register-bus access: while faulted every write is ignored; then admission; then the register's own rule (R240,
R241). -/
def busAccess (b : BusAccess) (s : State) : Host.Outcome State Fault Refusal :=
  if b.kind = .wr ∧ s.fault = true then .next s
  else
    match admittedRegister b with
    | some r => admittedAccess b.kind r b.data s
    | none => .next (badAccess b.kind s)

/-- The host's own write of one byte of the data memory (20_memory.md R60, R72; log 6, log 7). -/
def hostWrite (a : Word) (v : Byte) (s : State) : Host.Outcome State Fault Refusal :=
  if a.toNat < memSize s then .next { s with mem := storeByte s.mem a.toNat v } else .fault .hostAddressAbsent

/-- The host's own read of one byte of the data memory (R60, R72; log 6, log 7). -/
def hostRead (a : Word) (s : State) : Host.Outcome State Fault Refusal :=
  if a.toNat < memSize s then .next (reply (.byte (loadByte s.mem a.toNat)) s) else .fault .hostAddressAbsent

/-- One action of the host. -/
def hostAction (a : HostAction) (s : State) : Host.Outcome State Fault Refusal :=
  match a with
  | .access b => busAccess b s
  | .memWrite addr v => hostWrite addr v s
  | .memRead addr => hostRead addr s
  | .rst => .next (applyReset s)

/-- The access that carries a command: a 4-byte write of its word at the offset of `CMD` (30_encoding.md R80, R81). -/
def cmdAccess (w : Word) : BusAccess := ⟨.wr, offsetOf .cmd, 4, w⟩

end Sys2Proof.Machine
end

