-- ==== Sys2Proof/Machine/Step.lean ====
section
/-! DEFINITION. One step of the machine: the next action of the host (10_state.md R20, R21). -/

namespace Sys2Proof.Machine

/-- One step: take the host's oldest waiting action and perform it. MH3BP never steps on its own (10_state.md R20): with no
action waiting it holds its state (60_exceptions.md R286). -/
def step (s : State) : Host.Outcome State Fault Refusal :=
  match s.pending with
  | [] => .next s
  | a :: rest => hostAction a { s with pending := rest }

/-- The state whose very next step is the `WR CMD` of a word of `nbits` bits: MH3BP fetches nothing (10_state.md R21), and a
command comes to it as the host's next access (log 1). -/
def State.withFetchWord (s : State) (nbits w : Nat) : State :=
  { s with pending := .access (cmdAccess (BitVec.ofNat 32 (w % 2 ^ nbits))) :: s.pending }

end Sys2Proof.Machine
end

