-- ==== Sys2Proof/Machine/Assembler.lean ====
section
/-! DEFINITION. The assembler lines and pseudo-instructions of 30_encoding.md R89 and R90, as the bus accesses they stand for. -/

namespace Sys2Proof.Machine

/-- The offset `<reg>` stands for (30_encoding.md R89). -/
def offsetOfRef : RegRef → BitVec 8
  | .named r => offsetOf r
  | .offset o => o

/-- `WR <reg>, <value>` (R89). -/
def wrAccess (r : RegRef) (v : Word) : BusAccess := ⟨.wr, offsetOfRef r, 4, v⟩

/-- `RD <reg>` (R89). -/
def rdAccess (r : RegRef) : BusAccess := ⟨.rd, offsetOfRef r, 4, 0#32⟩

/-- `WR <reg>, <value>` of a register by its name. -/
def wrReg (r : Reg) (v : Word) : BusAccess := wrAccess (.named r) v

/-- `CMD <mnemonic>` (R89). -/
def cmdLine (i : Instr) : BusAccess := wrReg .cmd (encode i)

/-- The exact expansion of a line, in order (R89, R90). -/
def expandLine : AsmLine → List BusAccess
  | .wr r v => [wrAccess r v]
  | .rd r => [rdAccess r]
  | .cmd i => [cmdLine i]
  | .start v => [wrReg .ctrl v, cmdLine .start]
  | .put a n => [wrReg .addr a, wrReg .len n, cmdLine .put]
  | .finish => [cmdLine .finish]
  | .hash a n => [wrReg .addr a, wrReg .len n, cmdLine .hash]
  | .blkPut a => [wrReg .addr a, cmdLine .blkPut]
  | .blkPutn a n => [wrReg .addr a, wrReg .len n, cmdLine .blkPutn]
  | .blkRem a n => [wrReg .addr a, wrReg .len n, cmdLine .blkRem]
  | .blkFin => [cmdLine .blkFin]
  | .get a => [wrReg .addr a, cmdLine .get]
  | .seed32 s => [wrReg .seed1Lo s]
  | .seed128 s1 s2 s3 s4 => [wrReg .seed1Lo s1, wrReg .seed2Lo s2, wrReg .seed3 s3, wrReg .seed4 s4]
  | .seed64 s1 s2 =>
    [wrReg .seed1Lo (s1.extractLsb' 0 32), wrReg .seed1Hi (s1.extractLsb' 32 32),
      wrReg .seed2Lo (s2.extractLsb' 0 32), wrReg .seed2Hi (s2.extractLsb' 32 32)]

/-- A program of lines as the host's actions. -/
def assemble (lines : List AsmLine) : List HostAction :=
  lines.flatMap fun l => (expandLine l).map .access

end Sys2Proof.Machine
end

