-- ==== Sys2Proof/Machine/Message.lean ====
section
/-! DEFINITION. The whole-message functions of the three variants (41_x86_32.md R126, 42_x86_128.md R146, 43_x64_128.md R166):
what a computation is for, said without commands, phases or buffer. -/

namespace Sys2Proof.Machine

/-- Lanes after all whole blocks of a message, from its initial lanes. -/
def messageBlocks (v : Variant) (h : Lanes) (msg : List Byte) : Lanes :=
  blockSteps v (msg.length / blockBytes v) msg h

/-- The bytes of a message beyond its whole blocks, `S[B*floor(L/B) .. L)`. -/
def messageTail (v : Variant) (msg : List Byte) : List Byte :=
  msg.drop (msg.length / blockBytes v * blockBytes v)

/-- The lanes of the whole-message function: blocks, remainder, `SIZE = L`, finalize (R126, R146, R166). -/
def messageLanes (v : Variant) (h : Lanes) (msg : List Byte) : Lanes :=
  finalize v (remainder v (messageBlocks v h msg) (messageTail v msg)) (BitVec.ofNat 64 msg.length)

/-- The result bytes of the whole-message function (R126, R146, R166). -/
def messageHash (v : Variant) (h : Lanes) (msg : List Byte) : List Byte :=
  result v (messageLanes v h msg)

end Sys2Proof.Machine
end

