-- ==== Sys2Proof/Machine/System.lean ====
section
/-! DEFINITION. Several instances of MH3BP side by side (60_exceptions.md R285): each with all of its own state, sharing only
the data memory, their steps in one total order (20_memory.md R72). -/

namespace Sys2Proof.Machine

/-- A system of instances over one data memory. The memory stands here; the `mem` and `memLast` of an instance's own record are
set from it whenever the instance steps. -/
structure System where
  mem : List Host.Cell
  memLast : Word
  units : List State
  deriving DecidableEq, Repr

/-- An instance as it stands in the system: its own state over the shared memory. -/
def unitView (y : System) (u : State) : State := { u with mem := y.mem, memLast := y.memLast }

/-- One step of instance `k`: nothing of any other instance changes (R285). -/
def stepUnit (k : Nat) (y : System) : Host.Outcome System Fault Refusal :=
  match y.units[k]? with
  | none => .next y
  | some u =>
    match step (unitView y u) with
    | .next u' => .next { y with mem := u'.mem, units := y.units.set k u' }
    | .fault r => .fault r
    | .refused r => .refused r

/-- The steps of a system in the total order a schedule gives (R72): which instance moves at each step. -/
def runSystem : List Nat → System → Host.Outcome System Fault Refusal
  | [], y => .next y
  | k :: rest, y =>
    match stepUnit k y with
    | .next y' => runSystem rest y'
    | .fault r => .fault r
    | .refused r => .refused r

end Sys2Proof.Machine
end

