-- ==== Sys2Proof/Safety.lean ====
section
/-! DEFINITION. What a good state is, in the terms the statements use: the invariant of the spec's own rules, a latched fault,
and states that differ only where the host can never look. -/

namespace Sys2Proof.Machine

/-- The lane invariants of 10_state.md R30: unused lanes are 0, and the lanes of the 32-bit variants hold 0 in bits
[63:32]. -/
abbrev lanesLegal (v : Variant) (h : Lanes) : Prop :=
  match v with
  | .x86_32 => hi32 h.h1 = 0#32 ∧ h.h2 = 0#64 ∧ h.h3 = 0#64 ∧ h.h4 = 0#64
  | .x86_128 => hi32 h.h1 = 0#32 ∧ hi32 h.h2 = 0#32 ∧ hi32 h.h3 = 0#32 ∧ hi32 h.h4 = 0#32
  | .x64_128 => h.h3 = 0#64 ∧ h.h4 = 0#64

/-- The invariant every step keeps, clause by clause from the spec. -/
structure State.Inv (s : State) : Prop where
  /-- The data memory is in its canonical form. -/
  memCanonical : Memory.wf s.mem
  /-- Only addresses below `MEM_SIZE` hold a byte (20_memory.md R60). -/
  memInside : ∀ c ∈ s.mem, c.1 < memSize s
  /-- "Between commands `COUNT < B`" (10_state.md R31). -/
  countBelowBlock : s.count.toNat < blockBytes s.avar
  /-- `COUNT` = 0 in TAIL (44_stream_commands.md R183) and in FINAL. -/
  countZero : s.phase = .tail ∨ s.phase = .final → s.count = 0#4
  /-- The lane invariants (R30). -/
  lanesShape : lanesLegal s.avar s.lanes
  /-- `CAUSE` is 0 while `FAULT` = 0 (R27), and one of the codes 1 to 12 otherwise (60_exceptions.md R270). -/
  causeLatched : if s.fault = true then s.cause ≠ 0#4 ∧ s.cause ≤ 12#4 else s.cause = 0#4
  /-- In IDLE nothing has been started: the computation's state is as reset left it (R39). -/
  idleBlank : s.phase = .idle →
    s.avar = .x86_32 ∧ s.lanes = ⟨0#64, 0#64, 0#64, 0#64⟩ ∧ s.size = 0#64 ∧ s.count = 0#4
      ∧ s.buf = Vector.replicate 16 0#8

/-- The state after a raised fault: the state before it, with `FAULT` = 1 and `CAUSE` set (60_exceptions.md R273). -/
def faulted (code : BitVec 4) (s : State) : State := { s with fault := true, cause := code }

/-- Two states the host can never tell apart by `BUF`: equal but for buffer bytes at or above `COUNT` (10_state.md R31,
93_implementation_defined.md U19). -/
structure AgreeButDeadBuffer (s t : State) : Prop where
  rest : { s with buf := t.buf } = t
  live : bufRead s.buf s.count.toNat = bufRead t.buf t.count.toNat

/-- A series of PUT commands, each successful, that feeds the chunks of a list in order. Each PUT has its own `ADDR` and `LEN`,
and the data memory may have been rewritten since the one before (44_stream_commands.md R186, 20_memory.md R69). -/
inductive Feeds : State → List (List Byte) → State → Prop where
  /-- No chunk: nothing happens. -/
  | done (s : State) : Feeds s [] s
  /-- One PUT of the first chunk, then the others. -/
  | chunk (s s' t : State) (m : List Host.Cell) (a n : Word) (rest : List (List Byte))
      (put : exec .put { s with mem := m, addr := a, len := n } = .next s') (clean : s'.fault = false)
      (more : Feeds s' rest t) :
      Feeds s (memRead m a.toNat n.toNat :: rest) t

end Sys2Proof.Machine
end

