-- ==== Sys2Proof/Certificates/Slice0/Obligations.lean ====
section
/-! DEFINITION. The statements for the provers. A state equation `exec i s = .next { s with … }` also says the frame: every
field it does not name is as before. In every statement about a step, `pending` and `replies` are the model's form of "the host's
next access" and of "returns" (log 1, log 2). -/

open Sys2Proof Sys2Proof.Machine

/-! ## Reset and the faulted state -/

/-- 10_state.md section 4: the value of every state element after power-on reset. -/
def Obligations.PowerOnResetIsAllZero : Prop :=
  State.reset.ctrl = 0#2 ∧ State.reset.addr = 0#32 ∧ State.reset.len = 0#32
    ∧ State.reset.seed1Lo = 0#32 ∧ State.reset.seed1Hi = 0#32 ∧ State.reset.seed2Lo = 0#32
    ∧ State.reset.seed2Hi = 0#32 ∧ State.reset.seed3 = 0#32 ∧ State.reset.seed4 = 0#32
    ∧ State.reset.phase = .idle ∧ State.reset.avar = .x86_32 ∧ State.reset.fault = false
    ∧ State.reset.cause = 0#4 ∧ State.reset.lanes = ⟨0#64, 0#64, 0#64, 0#64⟩ ∧ State.reset.size = 0#64
    ∧ State.reset.count = 0#4 ∧ State.reset.buf = Vector.replicate 16 0#8

/-- R300, R303, R278: the `RST` input sets every element to its reset value and leaves the data memory alone; nothing else
leaves the faulted state, and a later violation is not recorded. That `RST` leaves the host's own actions and what it has read
is the model's choice (log 13, with log 1 and log 2). -/
def Obligations.ResetKeepsMemoryAndAloneEndsAFault : Prop :=
  (∀ (s : State) (rest : List HostAction), s.pending = .rst :: rest →
    ∃ t, step s = .next t ∧ t.ctrl = 0#2 ∧ t.addr = 0#32 ∧ t.len = 0#32
      ∧ t.seed1Lo = 0#32 ∧ t.seed1Hi = 0#32 ∧ t.seed2Lo = 0#32 ∧ t.seed2Hi = 0#32
      ∧ t.seed3 = 0#32 ∧ t.seed4 = 0#32 ∧ t.phase = .idle ∧ t.avar = .x86_32 ∧ t.fault = false ∧ t.cause = 0#4
      ∧ t.lanes = ⟨0#64, 0#64, 0#64, 0#64⟩ ∧ t.size = 0#64 ∧ t.count = 0#4 ∧ t.buf = Vector.replicate 16 0#8
      ∧ (∀ a, loadByte t.mem a = loadByte s.mem a) ∧ t.memLast = s.memLast
      ∧ t.pending = rest ∧ t.replies = s.replies)
  ∧ (∀ s t : State, s.pending.head? ≠ some .rst → s.fault = true → step s = .next t →
      t.fault = true ∧ t.cause = s.cause)

/-- R301: what the host reads right after reset, at power-on and after `RST` in any state: 0 from every register, with a fault from
`RESULTn` alone. That a read adds its reply to those the host has is the model's choice (log 2, log 13). -/
def Obligations.RegistersReadZeroAfterReset : Prop :=
  (∀ (s : State) (r : Reg) (x : Word) (rest : List HostAction),
    s.pending = .rst :: .access ⟨.rd, offsetOf r, 4, x⟩ :: rest →
      ∃ t u, step s = .next t ∧ step t = .next u
        ∧ (r ∉ [Reg.result0, .result1, .result2, .result3] →
            u = { t with pending := rest, replies := .word 0#32 :: s.replies })
        ∧ (r ∈ [Reg.result0, .result1, .result2, .result3] →
            u = { faulted 8#4 t with pending := rest, replies := .word 0#32 :: s.replies }))
  ∧ (∀ (r : Reg) (x : Word) (rest : List HostAction),
    (r ∉ [Reg.result0, .result1, .result2, .result3] →
      step { State.reset with pending := .access ⟨.rd, offsetOf r, 4, x⟩ :: rest } =
        .next { State.reset with pending := rest, replies := [.word 0#32] })
    ∧ (r ∈ [Reg.result0, .result1, .result2, .result3] →
      step { State.reset with pending := .access ⟨.rd, offsetOf r, 4, x⟩ :: rest } =
        .next { faulted 8#4 State.reset with pending := rest, replies := [.word 0#32] }))

/-- R241: while `FAULT` = 1 every write is ignored, a read returns what R247 to R249 give, a read that would fault returns 0,
`CAUSE` keeps its code, and nothing but reset ends it. -/
def Obligations.FaultedMachineIgnoresWritesAndAnswersReads : Prop :=
  (∀ (s : State) (b : BusAccess) (rest : List HostAction), s.pending = .access b :: rest → s.fault = true →
    (b.kind = .wr → step s = .next { s with pending := rest })
    ∧ (b.kind = .rd → (b.width ≠ 4 ∨ b.offset.toNat % 4 ≠ 0 ∨ ∀ r, b.offset ≠ offsetOf r) →
        step s = .next { s with pending := rest, replies := .word 0#32 :: s.replies })
    ∧ (∀ r, b.kind = .rd → b.width = 4 → b.offset = offsetOf r →
        step s = .next { s with
          pending := rest
          replies := .word (if r ∈ [Reg.result0, .result1, .result2, .result3] ∧ s.phase ≠ .final then 0#32
            else registerValue r s) :: s.replies }))
  ∧ (∀ s t : State, s.pending.head? ≠ some .rst → s.fault = true → step s = .next t →
      t.fault = true ∧ t.cause = s.cause)

/-- R271 with the codes of 60_exceptions.md section 1: the first cause is latched, a later one is not recorded. -/
def Obligations.RaiseLatchesTheFirstCauseOnly : Prop :=
  ∀ (c : Cause) (s : State),
    (s.fault = false → raise c s = { s with
      fault := true
      cause := match c with
        | .remTooLong => 1#4 | .remTwice => 2#4 | .finTwice => 3#4 | .mutateAfterFinal => 4#4
        | .blockAfterRem => 5#4 | .notStarted => 6#4 | .bufferNotEmpty => 7#4 | .resultNotReady => 8#4
        | .illegalCmd => 9#4 | .badVariant => 10#4 | .memRange => 11#4 | .badReg => 12#4 })
    ∧ (s.fault = true → raise c s = s)

/-- R273: a register access that raises makes no other effect: the state after it is the state before, with `FAULT` and `CAUSE`
set, and a read returns 0. -/
def Obligations.RaisingAccessMakesNoOtherEffect : Prop :=
  ∀ (s t : State) (b : BusAccess) (rest : List HostAction), s.pending = .access b :: rest → s.fault = false →
    step s = .next t → t.fault = true →
      t.cause ≠ 0#4 ∧ t.cause ≤ 12#4
      ∧ t = { faulted t.cause s with
          pending := rest
          replies := if b.kind = .rd then .word 0#32 :: s.replies else s.replies }

/-! ## Decoding and the step -/

/-- R86: decoding matches all 32 bits, accepts exactly the nine words, and names what is wrong with any other. -/
def Obligations.DecodeAcceptsExactlyTheNineWords : Prop :=
  (∀ (w : Word) (i : Instr), decode w = .ok i ↔ w = (match i with
    | .start => 0x00000001#32 | .put => 0x00000002#32 | .finish => 0x00000003#32 | .hash => 0x00000004#32
    | .blkPut => 0x00000010#32 | .blkPutn => 0x00000011#32 | .blkRem => 0x00000012#32 | .blkFin => 0x00000013#32
    | .get => 0x00000020#32))
  ∧ (∀ w : Word, w.extractLsb' 8 24 ≠ 0#24 → decode w = .error .reservedBitsSet)
  ∧ (∀ w : Word, w.extractLsb' 8 24 = 0#24 →
      w.extractLsb' 0 8 ∉ [0x01#8, 0x02#8, 0x03#8, 0x04#8, 0x10#8, 0x11#8, 0x12#8, 0x13#8, 0x20#8] →
      decode w = .error .unassignedOpcode)

/-- Decoding what the encoder wrote gives the command back, and offsets and registers stand for each other. -/
def Obligations.EncodersAndDecodersAgree : Prop :=
  (∀ i : Instr, i.wellFormed = true → decode (encode i) = .ok i)
  ∧ (∀ r : Reg, registerAt (offsetOf r) = some r)
  ∧ (∀ (o : BitVec 8) (r : Reg), registerAt o = some r → o = offsetOf r)

/-- The nine words of the opcode map, and five that are illegal, through the decoder on table words. -/
def Obligations.KnownCommandWordsDecode : Prop :=
  decodeTableWord 32 0x00000001 = some .start ∧ decodeTableWord 32 0x00000002 = some .put
    ∧ decodeTableWord 32 0x00000003 = some .finish ∧ decodeTableWord 32 0x00000004 = some .hash
    ∧ decodeTableWord 32 0x00000010 = some .blkPut ∧ decodeTableWord 32 0x00000011 = some .blkPutn
    ∧ decodeTableWord 32 0x00000012 = some .blkRem ∧ decodeTableWord 32 0x00000013 = some .blkFin
    ∧ decodeTableWord 32 0x00000020 = some .get
    ∧ decodeTableWord 32 0x00000000 = none ∧ decodeTableWord 32 0x00000005 = none
    ∧ decodeTableWord 32 0x00000014 = none ∧ decodeTableWord 32 0x00000021 = none
    ∧ decodeTableWord 32 0x00000101 = none

/-- R250: a 4-byte write of a word at offset 0x10 runs the decoded command in the same step, or raises `E_ILLEGAL_CMD`; a
command that raises has no effect beyond the fault. What the step adds around `exec` is that the host's action is used up. -/
def Obligations.StepRunsTheDecodedCommand : Prop :=
  ∀ (s : State) (w : Word) (rest : List HostAction),
    s.pending = .access ⟨.wr, 0x10#8, 4, w⟩ :: rest → s.fault = false →
      (∀ i, decode w = .ok i → step s = exec i { s with pending := rest })
      ∧ (∀ e, decode w = .error e → step s = .next (faulted 9#4 { s with pending := rest }))
      ∧ (∀ i t, decode w = .ok i → step s = .next t → t.fault = true →
          t = faulted t.cause { s with pending := rest })

/-- A command word placed for the next step is run by it (the model's choice of how a command comes to the machine, log 1). -/
def Obligations.PlacedCommandWordRunsNext : Prop :=
  ∀ (s : State) (w : Word) (i : Instr), s.fault = false → decode w = .ok i →
    step (s.withFetchWord 32 w.toNat) = exec i s

/-- R286 and R309 for the model: with no host action the state is held; every command answers a next state; and the one way a
step can stop is a host access to an absent data-memory address (log 6). -/
def Obligations.StepStopsOnlyAtAbsentAddresses : Prop :=
  (∀ s : State, s.pending = [] → step s = .next s)
  ∧ (∀ (i : Instr) (s : State), ∃ t, exec i s = .next t)
  ∧ (∀ s : State, (∃ t, step s = .next t)
      ∨ (step s = .fault .hostAddressAbsent
          ∧ ∃ a : Word, s.memLast < a
            ∧ (s.pending.head? = some (.memRead a) ∨ ∃ v, s.pending.head? = some (.memWrite a v))))

/-! ## Host register access -/

/-- R242: a write of `CTRL` keeps bits [1:0] and discards the rest, in every phase, with no other effect; a read returns them; and
until the next START or HASH every command does what it would have done without the write. -/
def Obligations.WriteCtrlKeepsTwoBits : Prop :=
  ∀ (s : State) (d : Word) (rest : List HostAction),
    s.pending = .access ⟨.wr, 0x00#8, 4, d⟩ :: rest → s.fault = false →
      step s = .next { s with pending := rest, ctrl := d.extractLsb' 0 2 }
      ∧ (∀ (x : Word) (rest' : List HostAction), rest = .access ⟨.rd, 0x00#8, 4, x⟩ :: rest' →
          step { s with pending := rest, ctrl := d.extractLsb' 0 2 } =
            .next { s with
              pending := rest'
              ctrl := d.extractLsb' 0 2
              replies := .word ((d.extractLsb' 0 2).setWidth 32) :: s.replies })
      ∧ (∀ (i : Instr) (u : State), i ≠ .start → i ≠ .hash → exec i { s with pending := rest } = .next u →
          exec i { s with pending := rest, ctrl := d.extractLsb' 0 2 } = .next { u with ctrl := d.extractLsb' 0 2 })

/-- R243: a write of `ADDR`, `LEN` or a seed register stores all 32 bits, in every phase, with no other effect, and a read that
follows returns them; and until the next START or HASH every command does what it would have done without a seed's write. -/
def Obligations.WriteOperandAndSeedRegisters : Prop :=
  ∀ (s : State) (o : BitVec 8) (d : Word) (rest : List HostAction),
    s.pending = .access ⟨.wr, o, 4, d⟩ :: rest → s.fault = false →
      (o = 0x08#8 → step s = .next { s with pending := rest, addr := d })
      ∧ (o = 0x0C#8 → step s = .next { s with pending := rest, len := d })
      ∧ (o = 0x20#8 → step s = .next { s with pending := rest, seed1Lo := d })
      ∧ (o = 0x24#8 → step s = .next { s with pending := rest, seed1Hi := d })
      ∧ (o = 0x28#8 → step s = .next { s with pending := rest, seed2Lo := d })
      ∧ (o = 0x2C#8 → step s = .next { s with pending := rest, seed2Hi := d })
      ∧ (o = 0x30#8 → step s = .next { s with pending := rest, seed3 := d })
      ∧ (o = 0x34#8 → step s = .next { s with pending := rest, seed4 := d })
      ∧ (o ∈ [0x08#8, 0x0C#8, 0x20#8, 0x24#8, 0x28#8, 0x2C#8, 0x30#8, 0x34#8] →
          ∀ (x : Word) (rest' : List HostAction), rest = .access ⟨.rd, o, 4, x⟩ :: rest' →
            ∃ t u, step s = .next t ∧ step t = .next u ∧ u.replies = .word d :: s.replies)
      ∧ (o ∈ [0x20#8, 0x24#8, 0x28#8, 0x2C#8, 0x30#8, 0x34#8] →
          ∀ (i : Instr) (t u : State), i ≠ .start → i ≠ .hash → step s = .next t → exec i t = .next u →
            exec i { s with pending := rest } = .next { u with
              seed1Lo := s.seed1Lo, seed1Hi := s.seed1Hi, seed2Lo := s.seed2Lo, seed2Hi := s.seed2Hi, seed3 := s.seed3
              seed4 := s.seed4 })

/-- R244: writes of the read-only registers `STATUS` and `RESULT0..3` change nothing and raise nothing. -/
def Obligations.WritesOfReadOnlyRegistersAreIgnored : Prop :=
  ∀ (s : State) (o : BitVec 8) (d : Word) (rest : List HostAction),
    s.pending = .access ⟨.wr, o, 4, d⟩ :: rest → o ∈ [0x04#8, 0x40#8, 0x44#8, 0x48#8, 0x4C#8] →
      step s = .next { s with pending := rest }

/-- R245: a wrong width, a misaligned offset or an offset with no register raises `E_BAD_REG` while `FAULT` = 0, and a faulting
read returns 0; the seventeen mapped offsets never do. -/
def Obligations.MalformedAccessRaisesBadReg : Prop :=
  ∀ (s : State) (b : BusAccess) (rest : List HostAction), s.pending = .access b :: rest → s.fault = false →
    ((b.width ≠ 4 ∨ b.offset.toNat % 4 ≠ 0
        ∨ b.offset ∉ [0x00#8, 0x04#8, 0x08#8, 0x0C#8, 0x10#8, 0x14#8, 0x18#8, 0x20#8, 0x24#8, 0x28#8, 0x2C#8,
            0x30#8, 0x34#8, 0x40#8, 0x44#8, 0x48#8, 0x4C#8]) →
      (b.kind = .rd → step s = .next { faulted 12#4 s with pending := rest, replies := .word 0#32 :: s.replies })
      ∧ (b.kind = .wr → step s = .next { faulted 12#4 s with pending := rest }))
    ∧ (b.width = 4 →
        b.offset ∈ [0x00#8, 0x04#8, 0x08#8, 0x0C#8, 0x10#8, 0x14#8, 0x18#8, 0x20#8, 0x24#8, 0x28#8, 0x2C#8,
            0x30#8, 0x34#8, 0x40#8, 0x44#8, 0x48#8, 0x4C#8] →
        ∀ t, step s = .next t → t.fault = true → t.cause ≠ 12#4)

/-- R246: writes of `SIZE_LO` and `SIZE_HI`: a half of `SIZE` in ABSORB and TAIL with no carry into the other, a fault in IDLE and
FINAL. -/
def Obligations.WriteSizeHalves : Prop :=
  ∀ (s : State) (o : BitVec 8) (d : Word) (rest : List HostAction),
    s.pending = .access ⟨.wr, o, 4, d⟩ :: rest → s.fault = false → o = 0x14#8 ∨ o = 0x18#8 →
      (s.phase = .idle → step s = .next { faulted 6#4 s with pending := rest })
      ∧ (s.phase = .final → step s = .next { faulted 4#4 s with pending := rest })
      ∧ (s.phase = .absorb ∨ s.phase = .tail →
          (o = 0x14#8 → step s = .next { s with pending := rest, size := s.size.extractLsb' 32 32 ++ d })
          ∧ (o = 0x18#8 → step s = .next { s with pending := rest, size := d ++ s.size.extractLsb' 0 32 }))

/-- R247 and R33: `RESULTn` reads bytes `4n .. 4n+3` of the result packed little-endian (0 where the result has no such bytes)
in FINAL, and otherwise returns 0 and raises `E_RESULT_NOT_READY` if no fault is latched. -/
def Obligations.ReadResultOnlyInFinal : Prop :=
  ∀ (s : State) (n : Nat) (x : Word) (rest : List HostAction), n < 4 →
    s.pending = .access ⟨.rd, BitVec.ofNat 8 (0x40 + 4 * n), 4, x⟩ :: rest →
      (s.phase ≠ .final → s.fault = false →
        step s = .next { faulted 8#4 s with pending := rest, replies := .word 0#32 :: s.replies })
      ∧ (s.phase ≠ .final → s.fault = true →
        step s = .next { s with pending := rest, replies := .word 0#32 :: s.replies })
      ∧ (s.phase = .final →
        step s = .next { s with
          pending := rest
          replies := .word (BitVec.ofNat 32 (packLE (((result s.avar s.lanes).drop (4 * n)).take 4))) :: s.replies })

/-- R248: reads of `CTRL`, `STATUS`, `ADDR`, `LEN`, `SIZE_LO`, `SIZE_HI` and the seeds return the current value, reserved bits 0,
with no other effect, in every phase and also while faulted. -/
def Obligations.ReadRegistersReturnTheirValues : Prop :=
  ∀ (s : State) (o : BitVec 8) (x v : Word) (rest : List HostAction),
    s.pending = .access ⟨.rd, o, 4, x⟩ :: rest →
    ((o = 0x00#8 ∧ v = s.ctrl.setWidth 32)
      ∨ (o = 0x04#8 ∧ v =
          ((match s.phase with | .idle => 0#32 | .absorb => 1#32 | .tail => 2#32 | .final => 3#32 : Word)
            ||| (match s.avar with | .x86_32 => 0#32 | .x86_128 => 1#32 | .x64_128 => 2#32 : Word) <<< 2
            ||| (if s.fault = true then 1#32 else 0#32 : Word) <<< 4
            ||| s.cause.setWidth 32 <<< 8))
      ∨ (o = 0x08#8 ∧ v = s.addr) ∨ (o = 0x0C#8 ∧ v = s.len)
      ∨ (o = 0x14#8 ∧ v = s.size.extractLsb' 0 32) ∨ (o = 0x18#8 ∧ v = s.size.extractLsb' 32 32)
      ∨ (o = 0x20#8 ∧ v = s.seed1Lo) ∨ (o = 0x24#8 ∧ v = s.seed1Hi)
      ∨ (o = 0x28#8 ∧ v = s.seed2Lo) ∨ (o = 0x2C#8 ∧ v = s.seed2Hi)
      ∨ (o = 0x30#8 ∧ v = s.seed3) ∨ (o = 0x34#8 ∧ v = s.seed4)) →
    step s = .next { s with pending := rest, replies := .word v :: s.replies }

/-- R249: a read of `CMD` returns 0 and has no other effect. -/
def Obligations.ReadCmdReturnsZero : Prop :=
  ∀ (s : State) (x : Word) (rest : List HostAction), s.pending = .access ⟨.rd, 0x10#8, 4, x⟩ :: rest →
    step s = .next { s with pending := rest, replies := .word 0#32 :: s.replies }

/-- The fields of `STATUS` (10_state.md R27): PHASE [1:0], AVAR [3:2], FAULT [4], CAUSE [11:8], and zeros in the reserved bits. -/
def Obligations.StatusFieldsStandApart : Prop :=
  ∀ s : State,
    (statusWord s).extractLsb' 0 2 =
      (match s.phase with | .idle => 0#2 | .absorb => 1#2 | .tail => 2#2 | .final => 3#2)
    ∧ (statusWord s).extractLsb' 2 2 =
      (match s.avar with | .x86_32 => 0#2 | .x86_128 => 1#2 | .x64_128 => 2#2)
    ∧ (statusWord s).extractLsb' 4 1 = (if s.fault = true then 1#1 else 0#1)
    ∧ (statusWord s).extractLsb' 5 3 = 0#3
    ∧ (statusWord s).extractLsb' 8 4 = s.cause
    ∧ (statusWord s).extractLsb' 12 20 = 0#20

/-! ## The nine commands -/

/-- R180: START. Legal in every phase; only `CTRL.VARIANT` = 3 raises. -/
def Obligations.StartLoadsTheSeeds : Prop :=
  ∀ s : State, s.fault = false →
    (s.ctrl = 0#2 → exec .start s = .next { s with
      avar := .x86_32, lanes := ⟨s.seed1Lo.setWidth 64, 0#64, 0#64, 0#64⟩
      size := 0#64, count := 0#4, buf := Vector.replicate 16 0#8, phase := .absorb })
    ∧ (s.ctrl = 1#2 → exec .start s = .next { s with
      avar := .x86_128
      lanes := ⟨s.seed1Lo.setWidth 64, s.seed2Lo.setWidth 64, s.seed3.setWidth 64, s.seed4.setWidth 64⟩
      size := 0#64, count := 0#4, buf := Vector.replicate 16 0#8, phase := .absorb })
    ∧ (s.ctrl = 2#2 → exec .start s = .next { s with
      avar := .x64_128, lanes := ⟨s.seed1Hi ++ s.seed1Lo, s.seed2Hi ++ s.seed2Lo, 0#64, 0#64⟩
      size := 0#64, count := 0#4, buf := Vector.replicate 16 0#8, phase := .absorb })
    ∧ (s.ctrl = 3#2 → exec .start s = .next (faulted 10#4 s))

/-- R182: PUT. With `all` the buffered bytes followed by the chunk, `nb` whole blocks of `all` are submitted and counted, and the
rest of `all` stands in the buffer. That the bytes of `BUF` at and above the new `COUNT` are those the pseudocode leaves there,
where the spec allows any value (93_implementation_defined.md U19), is the model's choice (log 18). -/
def Obligations.PutSubmitsWholeBlocksAndKeepsTheTail : Prop :=
  ∀ (s : State) (b nb : Nat) (data all : List Byte), s.fault = false →
    b = (match s.avar with | .x86_32 => 4 | .x86_128 => 16 | .x64_128 => 16) →
    data = memRead s.mem s.addr.toNat s.len.toNat → all = bufRead s.buf s.count.toNat ++ data → nb = all.length / b →
      (s.phase = .idle → exec .put s = .next (faulted 6#4 s))
      ∧ (s.phase = .tail → exec .put s = .next (faulted 5#4 s))
      ∧ (s.phase = .final → exec .put s = .next (faulted 4#4 s))
      ∧ (s.phase = .absorb → 0 < s.len.toNat → memSize s < s.addr.toNat + s.len.toNat →
          exec .put s = .next (faulted 11#4 s))
      ∧ (s.phase = .absorb → s.count.toNat < b → s.len.toNat = 0 ∨ s.addr.toNat + s.len.toNat ≤ memSize s →
          ∃ t, exec .put s = .next t
            ∧ t = { s with
                lanes := (List.range nb).foldl
                  (fun h j => blockStep s.avar h ((all.drop (j * b)).take b)) s.lanes
                size := s.size + BitVec.ofNat 64 (nb * b)
                buf := t.buf
                count := BitVec.ofNat 4 (all.length % b) }
            ∧ bufRead t.buf t.count.toNat = all.drop (nb * b)
            ∧ (∀ j, t.count.toNat ≤ j → j < 16 → t.buf.toList.getD j 0#8 =
                if nb ≠ 0 ∧ s.count ≠ 0#4 ∧ s.count.toNat ≤ j ∧ j < b then data.getD (j - s.count.toNat) 0#8
                else s.buf.toList.getD j 0#8)
            ∧ (s.len = 0#32 → t = s))

/-- R183: FINISH. In ABSORB and TAIL it folds the buffered bytes, counts them, finalizes and enters FINAL; with an empty buffer it
is exactly BLK_FIN. -/
def Obligations.FinishFoldsTheTailAndFinalizes : Prop :=
  ∀ s : State, s.fault = false →
    (s.phase = .idle → exec .finish s = .next (faulted 6#4 s))
    ∧ (s.phase = .final → exec .finish s = .next (faulted 3#4 s))
    ∧ (s.phase = .absorb ∨ s.phase = .tail →
        exec .finish s = .next { s with
          lanes := finalize s.avar (remainder s.avar s.lanes (bufRead s.buf s.count.toNat))
            (s.size + s.count.setWidth 64)
          size := s.size + s.count.setWidth 64
          count := 0#4
          phase := .final })
    ∧ (s.count = 0#4 → exec .finish s = exec .blkFin s)

/-- 44_stream_commands.md, HASH: both checks come before any effect, and a HASH that passes them is START, PUT and FINISH, none of
which then faults. -/
def Obligations.HashIsStartPutFinish : Prop :=
  ∀ s : State, s.fault = false →
    (s.ctrl = 3#2 → exec .hash s = .next (faulted 10#4 s))
    ∧ (s.ctrl ≠ 3#2 → 0 < s.len.toNat → memSize s < s.addr.toNat + s.len.toNat →
        exec .hash s = .next (faulted 11#4 s))
    ∧ (s.ctrl ≠ 3#2 → s.len.toNat = 0 ∨ s.addr.toNat + s.len.toNat ≤ memSize s →
        ∃ a b c, exec .start s = .next a ∧ a.fault = false ∧ exec .put a = .next b ∧ b.fault = false
          ∧ exec .finish b = .next c ∧ c.fault = false ∧ exec .hash s = .next c)

/-- R210: BLK_PUT. One block step over the `B` bytes at `ADDR`; `SIZE` is not touched. -/
def Obligations.BlkPutSubmitsOneBlock : Prop :=
  ∀ (s : State) (b : Nat), s.fault = false →
    b = (match s.avar with | .x86_32 => 4 | .x86_128 => 16 | .x64_128 => 16) →
      (s.phase = .idle → exec .blkPut s = .next (faulted 6#4 s))
      ∧ (s.phase = .tail → exec .blkPut s = .next (faulted 5#4 s))
      ∧ (s.phase = .final → exec .blkPut s = .next (faulted 4#4 s))
      ∧ (s.phase = .absorb → s.count ≠ 0#4 → exec .blkPut s = .next (faulted 7#4 s))
      ∧ (s.phase = .absorb → s.count = 0#4 → memSize s < s.addr.toNat + b →
          exec .blkPut s = .next (faulted 11#4 s))
      ∧ (s.phase = .absorb → s.count = 0#4 → s.addr.toNat + b ≤ memSize s →
          exec .blkPut s = .next { s with lanes := blockStep s.avar s.lanes (memRead s.mem s.addr.toNat b) })

/-- R211: BLK_PUTN. `LEN` block steps over contiguous blocks and one addition to `SIZE`; the range check covers all of them first;
`LEN` = 0 is legal whatever `ADDR` holds. -/
def Obligations.BlkPutnSubmitsLenBlocks : Prop :=
  ∀ (s : State) (b : Nat), s.fault = false →
    b = (match s.avar with | .x86_32 => 4 | .x86_128 => 16 | .x64_128 => 16) →
      (s.phase = .idle → exec .blkPutn s = .next (faulted 6#4 s))
      ∧ (s.phase = .tail → exec .blkPutn s = .next (faulted 5#4 s))
      ∧ (s.phase = .final → exec .blkPutn s = .next (faulted 4#4 s))
      ∧ (s.phase = .absorb → s.count ≠ 0#4 → exec .blkPutn s = .next (faulted 7#4 s))
      ∧ (s.phase = .absorb → s.count = 0#4 → 0 < s.len.toNat * b → memSize s < s.addr.toNat + s.len.toNat * b →
          exec .blkPutn s = .next (faulted 11#4 s))
      ∧ (s.phase = .absorb → s.count = 0#4 → s.len.toNat * b = 0 ∨ s.addr.toNat + s.len.toNat * b ≤ memSize s →
          exec .blkPutn s = .next { s with
            lanes := (List.range s.len.toNat).foldl
              (fun h j => blockStep s.avar h (memRead s.mem (s.addr.toNat + j * b) b)) s.lanes
            size := s.size + BitVec.ofNat 64 (s.len.toNat * b) })

/-- R212: BLK_REM. The remainder step over `LEN < B` bytes, `LEN` added to `SIZE`, then TAIL; `LEN` = 0 is legal and still moves to
TAIL. -/
def Obligations.BlkRemAcceptsOneShortRemainder : Prop :=
  ∀ (s : State) (b : Nat), s.fault = false →
    b = (match s.avar with | .x86_32 => 4 | .x86_128 => 16 | .x64_128 => 16) →
      (s.phase = .idle → exec .blkRem s = .next (faulted 6#4 s))
      ∧ (s.phase = .tail → exec .blkRem s = .next (faulted 2#4 s))
      ∧ (s.phase = .final → exec .blkRem s = .next (faulted 4#4 s))
      ∧ (s.phase = .absorb → s.count ≠ 0#4 → exec .blkRem s = .next (faulted 7#4 s))
      ∧ (s.phase = .absorb → s.count = 0#4 → b ≤ s.len.toNat → exec .blkRem s = .next (faulted 1#4 s))
      ∧ (s.phase = .absorb → s.count = 0#4 → s.len.toNat < b → 0 < s.len.toNat →
          memSize s < s.addr.toNat + s.len.toNat → exec .blkRem s = .next (faulted 11#4 s))
      ∧ (s.phase = .absorb → s.count = 0#4 → s.len.toNat < b →
          s.len.toNat = 0 ∨ s.addr.toNat + s.len.toNat ≤ memSize s →
          exec .blkRem s = .next { s with
            lanes := remainder s.avar s.lanes (memRead s.mem s.addr.toNat s.len.toNat)
            size := s.size + s.len.setWidth 64
            phase := .tail })
      ∧ (s.phase = .absorb → s.count = 0#4 → s.len = 0#32 → exec .blkRem s = .next { s with phase := .tail })

/-- R213: BLK_FIN. Finalize and enter FINAL, from ABSORB or TAIL with an empty buffer. -/
def Obligations.BlkFinFinalizes : Prop :=
  ∀ s : State, s.fault = false →
    (s.phase = .idle → exec .blkFin s = .next (faulted 6#4 s))
    ∧ (s.phase = .final → exec .blkFin s = .next (faulted 3#4 s))
    ∧ (s.phase = .absorb ∨ s.phase = .tail → s.count ≠ 0#4 → exec .blkFin s = .next (faulted 7#4 s))
    ∧ (s.phase = .absorb ∨ s.phase = .tail → s.count = 0#4 →
        exec .blkFin s = .next { s with lanes := finalize s.avar s.lanes s.size, phase := .final })

/-- R214: GET. In FINAL it writes the `RB` result bytes at `ADDR`, byte 0 lowest, and changes nothing else: every byte of the data
memory outside `ADDR .. ADDR+RB-1` reads as before. `Memory.wf` is the model's canonical form of a memory, an invariant. -/
def Obligations.GetWritesTheResultBytes : Prop :=
  ∀ (s : State) (rb : Nat), s.fault = false → Memory.wf s.mem →
    rb = (match s.avar with | .x86_32 => 4 | .x86_128 => 16 | .x64_128 => 16) →
      (s.phase ≠ .final → exec .get s = .next (faulted 8#4 s))
      ∧ (s.phase = .final → memSize s < s.addr.toNat + rb → exec .get s = .next (faulted 11#4 s))
      ∧ (s.phase = .final → s.addr.toNat + rb ≤ memSize s →
          ∃ m, exec .get s = .next { s with mem := m }
            ∧ (∀ a, s.addr.toNat ≤ a → a < s.addr.toNat + rb →
                loadByte m a = (result s.avar s.lanes).getD (a - s.addr.toNat) 0#8)
            ∧ (∀ a, a < s.addr.toNat ∨ s.addr.toNat + rb ≤ a → loadByte m a = loadByte s.mem a))

/-! ## Checks shared by the commands -/

/-- R66: for each command that reaches the data memory, once its other checks pass, `n > 0` and `ADDR + n > MEM_SIZE` raises
`E_MEM_RANGE` with no other effect, and otherwise (with `n` = 0 whatever `ADDR` holds) it does not fault. -/
def Obligations.RangeCheckComesBeforeAnyEffect : Prop :=
  ∀ (s : State) (i : Instr) (b n : Nat), s.fault = false →
    b = (match s.avar with | .x86_32 => 4 | .x86_128 => 16 | .x64_128 => 16) →
    ((i = .put ∧ n = s.len.toNat ∧ s.phase = .absorb)
      ∨ (i = .hash ∧ n = s.len.toNat ∧ s.ctrl ≠ 3#2)
      ∨ (i = .blkPut ∧ n = b ∧ s.phase = .absorb ∧ s.count = 0#4)
      ∨ (i = .blkPutn ∧ n = s.len.toNat * b ∧ s.phase = .absorb ∧ s.count = 0#4)
      ∨ (i = .blkRem ∧ n = s.len.toNat ∧ s.phase = .absorb ∧ s.count = 0#4 ∧ s.len.toNat < b)
      ∨ (i = .get ∧ n = b ∧ s.phase = .final)) →
    (0 < n → memSize s < s.addr.toNat + n → exec i s = .next (faulted 11#4 s))
    ∧ (n = 0 ∨ s.addr.toNat + n ≤ memSize s → ∃ t, exec i s = .next t ∧ t.fault = false)

/-- R215: the four commands that feed or finalize the Block Hasher raise `E_BUFFER_NOT_EMPTY` when the buffer holds bytes; GET does
not read `COUNT`. -/
def Obligations.BlockCommandsNeedAnEmptyBuffer : Prop :=
  (∀ (s : State) (i : Instr), s.fault = false → s.count ≠ 0#4 →
    (i ∈ [Instr.blkPut, .blkPutn, .blkRem, .blkFin] ∧ s.phase = .absorb) ∨ (i = .blkFin ∧ s.phase = .tail) →
      exec i s = .next (faulted 7#4 s))
  ∧ (∀ (s t : State) (c : BitVec 4), exec .get s = .next t → exec .get { s with count := c } = .next { t with count := c })

/-- No command changes `CTRL`, `ADDR`, `LEN` or a seed register, the host's actions or what it has read, and none runs while
faulted (10_state.md R24, R25; 70_reset_and_hazards.md R304). -/
def Obligations.CommandsKeepTheHostRegisters : Prop :=
  ∀ (i : Instr) (s t : State), exec i s = .next t →
    t.ctrl = s.ctrl ∧ t.addr = s.addr ∧ t.len = s.len ∧ t.seed1Lo = s.seed1Lo ∧ t.seed1Hi = s.seed1Hi
      ∧ t.seed2Lo = s.seed2Lo ∧ t.seed2Hi = s.seed2Hi ∧ t.seed3 = s.seed3 ∧ t.seed4 = s.seed4
      ∧ t.memLast = s.memLast ∧ t.pending = s.pending ∧ t.replies = s.replies
      ∧ (s.fault = true → t = s)

/-- Only START and HASH read `CTRL` and the seed registers: every other command does the same whatever they hold (10_state.md R22,
R23). -/
def Obligations.OnlyStartAndHashReadCtrlAndSeeds : Prop :=
  ∀ (i : Instr) (s t : State) (c : BitVec 2) (a b d e f g : Word), i ≠ .start → i ≠ .hash → exec i s = .next t →
    exec i { s with ctrl := c, seed1Lo := a, seed1Hi := b, seed2Lo := d, seed2Hi := e, seed3 := f, seed4 := g } =
      .next { t with ctrl := c, seed1Lo := a, seed1Hi := b, seed2Lo := d, seed2Hi := e, seed3 := f, seed4 := g }

/-- Only GET writes the data memory: no register access that is not an admitted write of GET's command word, and not reset, changes
a byte of it (10_state.md R37). -/
def Obligations.OnlyGetWritesTheDataMemory : Prop :=
  ∀ (s t : State) (a : HostAction) (rest : List HostAction), s.pending = a :: rest →
    (∀ (x : Word) (v : Byte), a ≠ .memWrite x v) → a ≠ .access ⟨.wr, 0x10#8, 4, 0x00000020#32⟩ →
    step s = .next t → t.mem = s.mem

/-- 20_memory.md R65: what a reading command does depends on the bytes at `ADDR ..`, never on `ADDR` itself. -/
def Obligations.ReadingCommandsIgnoreTheAddressItself : Prop :=
  ∀ (s t : State) (i : Instr) (a a' : Word), i ∈ [Instr.put, .hash, .blkPut, .blkPutn, .blkRem] →
    bytesTouched i s = 0 ∨ (a.toNat + bytesTouched i s ≤ memSize s ∧ a'.toNat + bytesTouched i s ≤ memSize s) →
    (∀ j, j < bytesTouched i s → loadByte s.mem (a.toNat + j) = loadByte s.mem (a'.toNat + j)) →
    exec i { s with addr := a } = .next t → exec i { s with addr := a' } = .next { t with addr := a' }

/-- The protocol's phase machine (10_state.md R28): apart from reset, a step changes the phase only by START into ABSORB, HASH into
FINAL, BLK_REM from ABSORB into TAIL, and FINISH or BLK_FIN from ABSORB or TAIL into FINAL. -/
def Obligations.PhaseMovesOnlyAlongTheProtocol : Prop :=
  ∀ s t : State, s.pending.head? ≠ some .rst → step s = .next t → t.phase ≠ s.phase →
    ∃ (w : Word) (i : Instr), s.pending.head? = some (.access ⟨.wr, 0x10#8, 4, w⟩) ∧ decode w = .ok i
      ∧ ((i = .start ∧ t.phase = .absorb) ∨ (i = .hash ∧ t.phase = .final)
        ∨ (i = .blkRem ∧ s.phase = .absorb ∧ t.phase = .tail)
        ∨ ((i = .finish ∨ i = .blkFin) ∧ (s.phase = .absorb ∨ s.phase = .tail) ∧ t.phase = .final))

/-! ## The datapath -/

/-- R101: the rotator, both ends of its range included; it is the circular left rotate over the full width; and its two examples. -/
def Obligations.RotatorIsCircularOverTheFullWidth : Prop :=
  (∀ (w : Nat) (x : BitVec w) (r : Nat), r ≤ w →
    (r = 0 ∨ r = w → rotl x r = x)
    ∧ (r ≠ 0 → r ≠ w → rotl x r = x <<< r ||| x >>> (w - r))
    ∧ (∀ i, i < w → (rotl x r).getLsbD i = x.getLsbD ((i + (w - r)) % w)))
  ∧ rotl 0x80000001#32 1 = 0x00000003#32 ∧ rotl 0x12345678#32 15 = 0x2B3C091A#32

/-- 40_mixing.md, `finalMix32`: its five steps on every word; it is a bijection on 32-bit words, and fixes 0; and the examples. That
"xor>>s" is `h ^ (h >> s)` is the spec's own supply (log 9). -/
def Obligations.FinalMix32IsABijection : Prop :=
  (∀ h a b c d e : Word, a = h ^^^ (h >>> 16) → b = a * 0x85ebca6b#32 → c = b ^^^ (b >>> 13) → d = c * 0xc2b2ae35#32 →
    e = d ^^^ (d >>> 16) → finalMix32 h = e)
  ∧ Function.Bijective finalMix32 ∧ finalMix32 0#32 = 0#32
  ∧ finalMix32 1#32 = 0x514E28B7#32 ∧ finalMix32 0xFFFFFFFF#32 = 0x81F16F39#32

/-- 40_mixing.md, `finalMix64`: its five steps on every word; it is a bijection on 64-bit words, and fixes 0; and the example. Its
constants and shifts are the spec's own supply (log 9). -/
def Obligations.FinalMix64IsABijection : Prop :=
  (∀ k a b c d e : DWord, a = k ^^^ (k >>> 33) → b = a * 0xff51afd7ed558ccd#64 → c = b ^^^ (b >>> 33) →
    d = c * 0xc4ceb9fe1a85ec53#64 → e = d ^^^ (d >>> 33) → finalMix64 k = e)
  ∧ Function.Bijective finalMix64 ∧ finalMix64 0#64 = 0#64 ∧ finalMix64 1#64 = 0xB456BCFC34C2CB2C#64

/-- R64: byte `4j + i` of a block is bits `[8i+7 : 8i]` of its 32-bit word `j`, and byte `8j + i` those of its 64-bit word `j`. -/
def Obligations.BlockWordsAreLittleEndian : Prop :=
  (∀ (blk : List Byte) (j i : Nat), i < 4 → (blockWord32 blk j).extractLsb' (8 * i) 8 = blk.getD (4 * j + i) 0#8)
  ∧ (∀ (blk : List Byte) (j i : Nat), i < 8 → (blockWord64 blk j).extractLsb' (8 * i) 8 = blk.getD (8 * j + i) 0#8)

/-- R121, R122, R123: the block step, remainder step and finalize of `x86_32` on their bytes, and its result (R124 says also where
GET puts the bytes: another statement). What `shuffle`, `update` and `finalMix32` are on every operand, statements of their own say:
`ShuffleFollowsItsFormula`, `UpdateFollowsItsFormula`, `FinalMix32IsABijection`. -/
def Obligations.HasherOfX86_32 : Prop :=
  ∀ (h : Lanes) (b0 b1 b2 b3 : Byte) (size : DWord),
    blockStep .x86_32 h [b0, b1, b2, b3] = { h with
      h1 := (update (h.h1.setWidth 32) (b3 ++ b2 ++ b1 ++ b0 : BitVec 32) 0#32 0xcc9e2d51#32 0x1b873593#32 15 13
        0xe6546b64#32).setWidth 64 }
    ∧ remainder .x86_32 h [] = h
    ∧ remainder .x86_32 h [b0] = { h with
      h1 := (h.h1.setWidth 32 ^^^ shuffle (b0.setWidth 32) 0xcc9e2d51#32 0x1b873593#32 15).setWidth 64 }
    ∧ remainder .x86_32 h [b0, b1] = { h with
      h1 := (h.h1.setWidth 32 ^^^ shuffle ((b1 ++ b0 : BitVec 16).setWidth 32) 0xcc9e2d51#32 0x1b873593#32 15).setWidth 64 }
    ∧ remainder .x86_32 h [b0, b1, b2] = { h with
      h1 := (h.h1.setWidth 32 ^^^ shuffle ((b2 ++ b1 ++ b0 : BitVec 24).setWidth 32) 0xcc9e2d51#32 0x1b873593#32 15).setWidth 64 }
    ∧ finalize .x86_32 h size = { h with h1 := (finalMix32 (h.h1.setWidth 32 ^^^ size.setWidth 32)).setWidth 64 }
    ∧ result .x86_32 h =
      [h.h1.extractLsb' 0 8, h.h1.extractLsb' 8 8, h.h1.extractLsb' 16 8, h.h1.extractLsb' 24 8]
    ∧ resultWord .x86_32 h 0 = h.h1.setWidth 32
    ∧ resultWord .x86_32 h 1 = 0#32 ∧ resultWord .x86_32 h 2 = 0#32 ∧ resultWord .x86_32 h 3 = 0#32

/-- 42_x86_128.md: the sequential block step, the remainder step with each lane folded if and only if it has a byte, finalize with
its two rounds of additions, and the result words. The constants and the order are the spec's own supply (log 9). -/
def Obligations.HasherOfX86_128 : Prop :=
  ∀ (h : Lanes) (blk t : List Byte) (size : DWord) (k1 k2 k3 k4 p1 p2 p3 p4 l a b c d : Word),
    k1 = h.h1.setWidth 32 → k2 = h.h2.setWidth 32 → k3 = h.h3.setWidth 32 → k4 = h.h4.setWidth 32 →
    l = size.setWidth 32 →
    (p1 = update k1 (blockWord32 blk 0) k2 0x239b961b#32 0xab0e9789#32 15 19 0x561ccd1b#32 →
     p2 = update k2 (blockWord32 blk 1) k3 0xab0e9789#32 0x38b34ae5#32 16 17 0x0bcaa747#32 →
     p3 = update k3 (blockWord32 blk 2) k4 0x38b34ae5#32 0xa1e38b93#32 17 15 0x96cd1c35#32 →
     p4 = update k4 (blockWord32 blk 3) p1 0xa1e38b93#32 0x239b961b#32 18 13 0x32ac3b17#32 →
      blockStep .x86_128 h blk = ⟨p1.setWidth 64, p2.setWidth 64, p3.setWidth 64, p4.setWidth 64⟩)
    ∧ (t.length ≤ 15 → remainder .x86_128 h t =
        ⟨if 0 < t.length then
            (k1 ^^^ shuffle (BitVec.ofNat 32 (packLE (t.take 4))) 0x239b961b#32 0xab0e9789#32 15).setWidth 64 else h.h1,
          if 4 < t.length then
            (k2 ^^^ shuffle (BitVec.ofNat 32 (packLE ((t.drop 4).take 4))) 0xab0e9789#32 0x38b34ae5#32 16).setWidth 64
            else h.h2,
          if 8 < t.length then
            (k3 ^^^ shuffle (BitVec.ofNat 32 (packLE ((t.drop 8).take 4))) 0x38b34ae5#32 0xa1e38b93#32 17).setWidth 64
            else h.h3,
          if 12 < t.length then
            (k4 ^^^ shuffle (BitVec.ofNat 32 (packLE (t.drop 12))) 0xa1e38b93#32 0x239b961b#32 18).setWidth 64
            else h.h4⟩)
    ∧ (a = finalMix32 ((k1 ^^^ l) + (k2 ^^^ l) + (k3 ^^^ l) + (k4 ^^^ l)) →
       b = finalMix32 ((k2 ^^^ l) + ((k1 ^^^ l) + (k2 ^^^ l) + (k3 ^^^ l) + (k4 ^^^ l))) →
       c = finalMix32 ((k3 ^^^ l) + ((k1 ^^^ l) + (k2 ^^^ l) + (k3 ^^^ l) + (k4 ^^^ l))) →
       d = finalMix32 ((k4 ^^^ l) + ((k1 ^^^ l) + (k2 ^^^ l) + (k3 ^^^ l) + (k4 ^^^ l))) →
        finalize .x86_128 h size =
          ⟨(a + b + c + d).setWidth 64, (b + (a + b + c + d)).setWidth 64, (c + (a + b + c + d)).setWidth 64,
            (d + (a + b + c + d)).setWidth 64⟩)
    ∧ resultWord .x86_128 h 0 = k1 ∧ resultWord .x86_128 h 1 = k2
    ∧ resultWord .x86_128 h 2 = k3 ∧ resultWord .x86_128 h 3 = k4

/-- 43_x64_128.md: the sequential block step, the remainder step, finalize over all 64 bits of `SIZE`, and the result bytes. The
constants and the order are the spec's own supply (log 9). -/
def Obligations.HasherOfX64_128 : Prop :=
  ∀ (h : Lanes) (blk t : List Byte) (size p1 p2 a b : DWord),
    (p1 = update h.h1 (blockWord64 blk 0) h.h2 0x87c37b91114253d5#64 0x4cf5ad432745937f#64 31 27 0x52dce729#64 →
     p2 = update h.h2 (blockWord64 blk 1) p1 0x4cf5ad432745937f#64 0x87c37b91114253d5#64 33 31 0x38495ab5#64 →
      blockStep .x64_128 h blk = ⟨p1, p2, h.h3, h.h4⟩)
    ∧ (t.length ≤ 15 → remainder .x64_128 h t =
        ⟨if 0 < t.length then
            h.h1 ^^^ shuffle (BitVec.ofNat 64 (packLE (t.take 8))) 0x87c37b91114253d5#64 0x4cf5ad432745937f#64 31 else h.h1,
          if 8 < t.length then
            h.h2 ^^^ shuffle (BitVec.ofNat 64 (packLE (t.drop 8))) 0x4cf5ad432745937f#64 0x87c37b91114253d5#64 33 else h.h2,
          h.h3, h.h4⟩)
    ∧ (a = finalMix64 ((h.h1 ^^^ size) + (h.h2 ^^^ size)) →
       b = finalMix64 ((h.h2 ^^^ size) + ((h.h1 ^^^ size) + (h.h2 ^^^ size))) →
        finalize .x64_128 h size = ⟨a + b, b + (a + b), h.h3, h.h4⟩)
    ∧ (∀ j, j < 8 → (result .x64_128 h).getD j 0#8 = h.h1.extractLsb' (8 * j) 8)
    ∧ (∀ j, j < 8 → (result .x64_128 h).getD (8 + j) 0#8 = h.h2.extractLsb' (8 * j) 8)
    ∧ (result .x64_128 h).length = 16

/-- The worked examples of 40_mixing.md and the traces V-T1, V-T2 and V-T3 of 95_test_vectors.md (the examples of 41_x86_32.md,
42_x86_128.md and 43_x64_128.md) through one block, a remainder and finalize. -/
def Obligations.DatapathWorkedExamples : Prop :=
  rotl 0x80000001#32 1 = 0x00000003#32 ∧ rotl 0x12345678#32 15 = 0x2B3C091A#32
    ∧ shuffle 1#32 0xcc9e2d51#32 0x1b873593#32 15 = 0xC3539A5D#32
    ∧ update 0#32 0#32 0#32 0xcc9e2d51#32 0x1b873593#32 15 13 0xe6546b64#32 = 0xE6546B64#32
    ∧ update 0#32 1#32 0#32 0xcc9e2d51#32 0x1b873593#32 15 13 0xe6546b64#32 = 0x26CF0576#32
    ∧ finalMix32 1#32 = 0x514E28B7#32 ∧ finalMix32 0xFFFFFFFF#32 = 0x81F16F39#32
    ∧ finalMix64 1#64 = 0xB456BCFC34C2CB2C#64
    ∧ blockStep .x86_32 ⟨0#64, 0#64, 0#64, 0#64⟩ [0#8, 1#8, 2#8, 3#8] = ⟨0x5A7C19DF#64, 0#64, 0#64, 0#64⟩
    ∧ remainder .x86_32 ⟨0x5A7C19DF#64, 0#64, 0#64, 0#64⟩ [4#8, 5#8, 6#8] = ⟨0x1440A63F#64, 0#64, 0#64, 0#64⟩
    ∧ finalize .x86_32 ⟨0x1440A63F#64, 0#64, 0#64, 0#64⟩ 7#64 = ⟨0x8D7E4914#64, 0#64, 0#64, 0#64⟩
    ∧ blockStep .x86_128 ⟨0#64, 0#64, 0#64, 0#64⟩
        [0#8, 1#8, 2#8, 3#8, 4#8, 5#8, 6#8, 7#8, 8#8, 9#8, 10#8, 11#8, 12#8, 13#8, 14#8, 15#8] =
        ⟨0x4DA35DC9#64, 0xE63B85D2#64, 0x45E13894#64, 0xE3E40E30#64⟩
    ∧ remainder .x86_128 ⟨0x4DA35DC9#64, 0xE63B85D2#64, 0x45E13894#64, 0xE3E40E30#64⟩
        [0x10#8, 0x11#8, 0x12#8, 0x13#8, 0x14#8] = ⟨0x8050FA6A#64, 0x1F87EB9D#64, 0x45E13894#64, 0xE3E40E30#64⟩
    ∧ finalize .x86_128 ⟨0x8050FA6A#64, 0x1F87EB9D#64, 0x45E13894#64, 0xE3E40E30#64⟩ 21#64 =
        ⟨0x0862C05E#64, 0x524EE4AD#64, 0xE352D97B#64, 0xF7CBA3C0#64⟩
    ∧ blockStep .x64_128 ⟨0#64, 0#64, 0#64, 0#64⟩
        [0#8, 1#8, 2#8, 3#8, 4#8, 5#8, 6#8, 7#8, 8#8, 9#8, 10#8, 11#8, 12#8, 13#8, 14#8, 15#8] =
        ⟨0xDCAC505EA5C458DF#64, 0x72927C4BE244042D#64, 0#64, 0#64⟩
    ∧ remainder .x64_128 ⟨0xDCAC505EA5C458DF#64, 0x72927C4BE244042D#64, 0#64, 0#64⟩
        [0x10#8, 0x11#8, 0x12#8, 0x13#8, 0x14#8] = ⟨0x012B89FC1EA6FB7D#64, 0x72927C4BE244042D#64, 0#64, 0#64⟩
    ∧ finalize .x64_128 ⟨0x012B89FC1EA6FB7D#64, 0x72927C4BE244042D#64, 0#64, 0#64⟩ 21#64 =
        ⟨0xCDD13DA028D41203#64, 0x6BC50EFC2DA2E7CB#64, 0#64, 0#64⟩

/-! ## What a computation computes -/

/-- A HASH that passes its checks leaves the lanes of the whole-message function of the variant on the `LEN` bytes at `ADDR`, `SIZE` =
`LEN`, an empty buffer, and FINAL (41_x86_32.md R126, 42_x86_128.md R146, 43_x64_128.md R166 by 44_stream_commands.md R184). -/
def Obligations.HashComputesTheWholeMessageFunction : Prop :=
  ∀ (s : State) (v : Variant), s.fault = false →
    s.ctrl = (match v with | .x86_32 => 0#2 | .x86_128 => 1#2 | .x64_128 => 2#2) →
    s.len.toNat = 0 ∨ s.addr.toNat + s.len.toNat ≤ memSize s →
      ∃ t, exec .hash s = .next t
        ∧ t = { s with
            avar := v
            lanes := messageLanes v (seedLanes v s) (memRead s.mem s.addr.toNat s.len.toNat)
            size := s.len.setWidth 64
            buf := t.buf
            count := 0#4
            phase := .final }

/-- However a message is cut into chunks, and wherever each chunk stands in memory, from a fresh computation (ABSORB with nothing
buffered and nothing counted, as START leaves it) the PUTs and FINISH leave the lanes of the whole-message function of all its bytes,
and `SIZE` counts them modulo 2^64 (44_stream_commands.md R186, R187). -/
def Obligations.StreamComputesTheWholeMessageFunction : Prop :=
  ∀ (s t : State) (chunks : List (List Byte)), s.phase = .absorb → s.fault = false → s.count = 0#4 → s.size = 0#64 →
    Feeds s chunks t →
      ∃ u, exec .finish t = .next u ∧ u.phase = .final ∧ u.avar = s.avar ∧ u.count = 0#4
        ∧ u.lanes = messageLanes s.avar s.lanes chunks.flatten
        ∧ u.size = BitVec.ofNat 64 chunks.flatten.length

/-- Chunk invariance from any started computation: chunks that spell the bytes of one PUT leave, after FINISH, the same lanes, `SIZE`
and result as that PUT (44_stream_commands.md R186). -/
def Obligations.ChunkingDoesNotMatter : Prop :=
  ∀ (s t u : State) (chunks : List (List Byte)) (m : List Host.Cell) (a n : Word),
    s.phase = .absorb → s.fault = false → s.count.toNat < blockBytes s.avar → Feeds s chunks t →
    exec .put { s with mem := m, addr := a, len := n } = .next u → u.fault = false →
    memRead m a.toNat n.toNat = chunks.flatten →
      ∃ t' u', exec .finish t = .next t' ∧ exec .finish u = .next u' ∧ t'.phase = .final ∧ u'.phase = .final
        ∧ t'.lanes = u'.lanes ∧ t'.size = u'.size ∧ result t'.avar t'.lanes = result u'.avar u'.lanes

/-- While chunks are being fed to a fresh computation, `SIZE` is the number of bytes put less those still buffered
(44_stream_commands.md R187). -/
def Obligations.SizeCountsTheSubmittedBytes : Prop :=
  ∀ (s t : State) (chunks : List (List Byte)), s.phase = .absorb → s.fault = false → s.count = 0#4 → s.size = 0#64 →
    Feeds s chunks t →
      t.count.toNat = chunks.flatten.length % blockBytes s.avar
      ∧ t.size = BitVec.ofNat 64 (chunks.flatten.length - t.count.toNat)

/-- The block path and the stream path agree: whole blocks by BLK_PUTN, the rest by BLK_REM and BLK_FIN, leave the same lanes, `SIZE`,
phase and result as one PUT of all the bytes and FINISH (45_block_commands.md R216). -/
def Obligations.BlockPathEqualsStreamPath : Prop :=
  ∀ (s s1 s2 t1 : State) (a a' n r l : Word), s.phase = .absorb → s.fault = false → s.count = 0#4 →
    r.toNat < blockBytes s.avar → l.toNat = n.toNat * blockBytes s.avar + r.toNat →
    a'.toNat = a.toNat + n.toNat * blockBytes s.avar →
    exec .blkPutn { s with addr := a, len := n } = .next s1 → s1.fault = false →
    exec .blkRem { s1 with addr := a', len := r } = .next s2 → s2.fault = false →
    exec .put { s with addr := a, len := l } = .next t1 → t1.fault = false →
      ∃ s3 t2, exec .blkFin s2 = .next s3 ∧ exec .finish t1 = .next t2 ∧ s3.phase = .final ∧ t2.phase = .final
        ∧ s3.lanes = t2.lanes ∧ s3.size = t2.size ∧ result s3.avar s3.lanes = result t2.avar t2.lanes

/-- BLK_PUTN of `n+1` blocks is a BLK_PUT, then BLK_PUTN of the `n` blocks behind it, but that BLK_PUT leaves its own `B` bytes for the
host to count (45_block_commands.md R216). -/
def Obligations.BlkPutnIsOneBlockThenTheRest : Prop :=
  ∀ (s x y z : State) (n a' : Word), s.phase = .absorb → s.fault = false → s.count = 0#4 →
    s.len.toNat = n.toNat + 1 → a'.toNat = s.addr.toNat + blockBytes s.avar →
    exec .blkPutn s = .next x → x.fault = false → exec .blkPut s = .next y → y.fault = false →
    exec .blkPutn { y with addr := a', len := n } = .next z → z.fault = false →
      x.lanes = z.lanes ∧ x.size = z.size + BitVec.ofNat 64 (blockBytes s.avar)

/-! ## Invariants, hidden state, memory and several instances -/

/-- The invariant holds right after power-on reset. -/
def Obligations.InvariantHoldsAtReset : Prop := State.reset.Inv

/-- Every step keeps the invariant: the memory canonical and inside `MEM_SIZE`, `COUNT < B`, `COUNT` = 0 in TAIL and FINAL, the lanes
of R30, `CAUSE` 0 or 1..12 as `FAULT` says, and an untouched computation in IDLE. -/
def Obligations.EveryStepKeepsTheInvariant : Prop :=
  ∀ s t : State, s.Inv → step s = .next t → t.Inv

/-- Buffer bytes at or above `COUNT` are read by no rule: from states that agree but there, a step leads to states that agree but there,
replies included, or stops in the same way (10_state.md R31, 93_implementation_defined.md U19). -/
def Obligations.DeadBufferBytesAreNeverObserved : Prop :=
  ∀ s t : State, AgreeButDeadBuffer s t → s.count.toNat < blockBytes s.avar →
    (∀ s', step s = .next s' → ∃ t', step t = .next t' ∧ AgreeButDeadBuffer s' t')
    ∧ (∀ f, step s = .fault f → step t = .fault f)

/-- The data memory is plain storage: after the host writes a byte it reads that byte there, and the old byte anywhere else, with
nothing else of the machine changed (20_memory.md R67, R72; byte-wise host accesses are the model's choice, log 7). -/
def Obligations.HostReadsWhatWasLastWritten : Prop :=
  ∀ (s : State) (a b : Word) (v : Byte) (rest : List HostAction), Memory.wf s.mem →
    a.toNat < memSize s → b.toNat < memSize s → s.pending = .memWrite a v :: .memRead b :: rest →
      ∃ t u, step s = .next t ∧ t = { s with mem := t.mem, pending := .memRead b :: rest }
        ∧ (∀ x, loadByte t.mem x = if x = a.toNat then v else loadByte s.mem x)
        ∧ step t = .next u
        ∧ u = { t with pending := rest, replies := .byte (if b = a then v else loadByte s.mem b.toNat) :: s.replies }

/-- Instances share nothing but the data memory: a step of one leaves every other as it was, and what it does depends on nothing of
the others (60_exceptions.md R285). -/
def Obligations.InstancesShareOnlyTheMemory : Prop :=
  (∀ (k : Nat) (y y' : System), stepUnit k y = .next y' →
    y'.units.length = y.units.length ∧ y'.memLast = y.memLast ∧ ∀ j, j ≠ k → y'.units[j]? = y.units[j]?)
  ∧ (∀ (k : Nat) (y z y' : System), y.mem = z.mem → y.memLast = z.memLast → y.units[k]? = z.units[k]? →
      stepUnit k y = .next y' → ∃ z', stepUnit k z = .next z' ∧ z'.mem = y'.mem ∧ z'.units[k]? = y'.units[k]?)

/-- R90: the exact expansion of every pseudo-instruction, in order. -/
def Obligations.PseudoInstructionsExpandExactly : Prop :=
  ∀ (v a n s s1 s2 s3 s4 : Word) (q1 q2 : DWord),
    expandLine (.start v) = [⟨.wr, 0x00#8, 4, v⟩, ⟨.wr, 0x10#8, 4, 0x00000001#32⟩]
    ∧ expandLine (.put a n) = [⟨.wr, 0x08#8, 4, a⟩, ⟨.wr, 0x0C#8, 4, n⟩, ⟨.wr, 0x10#8, 4, 0x00000002#32⟩]
    ∧ expandLine .finish = [⟨.wr, 0x10#8, 4, 0x00000003#32⟩]
    ∧ expandLine (.hash a n) = [⟨.wr, 0x08#8, 4, a⟩, ⟨.wr, 0x0C#8, 4, n⟩, ⟨.wr, 0x10#8, 4, 0x00000004#32⟩]
    ∧ expandLine (.blkPut a) = [⟨.wr, 0x08#8, 4, a⟩, ⟨.wr, 0x10#8, 4, 0x00000010#32⟩]
    ∧ expandLine (.blkPutn a n) = [⟨.wr, 0x08#8, 4, a⟩, ⟨.wr, 0x0C#8, 4, n⟩, ⟨.wr, 0x10#8, 4, 0x00000011#32⟩]
    ∧ expandLine (.blkRem a n) = [⟨.wr, 0x08#8, 4, a⟩, ⟨.wr, 0x0C#8, 4, n⟩, ⟨.wr, 0x10#8, 4, 0x00000012#32⟩]
    ∧ expandLine .blkFin = [⟨.wr, 0x10#8, 4, 0x00000013#32⟩]
    ∧ expandLine (.get a) = [⟨.wr, 0x08#8, 4, a⟩, ⟨.wr, 0x10#8, 4, 0x00000020#32⟩]
    ∧ expandLine (.seed32 s) = [⟨.wr, 0x20#8, 4, s⟩]
    ∧ expandLine (.seed128 s1 s2 s3 s4) =
      [⟨.wr, 0x20#8, 4, s1⟩, ⟨.wr, 0x28#8, 4, s2⟩, ⟨.wr, 0x30#8, 4, s3⟩, ⟨.wr, 0x34#8, 4, s4⟩]
    ∧ expandLine (.seed64 q1 q2) =
      [⟨.wr, 0x20#8, 4, q1.extractLsb' 0 32⟩, ⟨.wr, 0x24#8, 4, q1.extractLsb' 32 32⟩,
        ⟨.wr, 0x28#8, 4, q2.extractLsb' 0 32⟩, ⟨.wr, 0x2C#8, 4, q2.extractLsb' 32 32⟩]

/-! ## The mixing formulas on every operand -/

/-- 40_mixing.md, `shuffle`: its formula on every operand of every width; a zero word gives 0; it loses nothing exactly when both
constants are odd; the constants of every lane of the three variants are odd (those of the 128-bit variants are the spec's own
supply, log 9); and the example. -/
def Obligations.ShuffleFollowsItsFormula : Prop :=
  (∀ (w : Nat) (k c1 c2 : BitVec w) (r1 : Nat), shuffle k c1 c2 r1 = rotl (k * c1) r1 * c2 ∧ shuffle 0#w c1 c2 r1 = 0#w)
  ∧ (∀ (w : Nat) (c1 c2 : BitVec w) (r1 : Nat), 0 < w → r1 ≤ w →
      (Function.Injective (fun k => shuffle k c1 c2 r1) ↔ c1.getLsbD 0 = true ∧ c2.getLsbD 0 = true))
  ∧ (∀ p ∈ [paramsX86_32, params1X86_128, params2X86_128, params3X86_128, params4X86_128],
      p.cA.getLsbD 0 = true ∧ p.cB.getLsbD 0 = true)
  ∧ (∀ p ∈ [params1X64_128, params2X64_128], p.cA.getLsbD 0 = true ∧ p.cB.getLsbD 0 = true)
  ∧ shuffle 1#32 0xcc9e2d51#32 0x1b873593#32 15 = 0xC3539A5D#32

/-- 40_mixing.md, `update`: its formula on every operand of every width, and the examples. That `x86_32` mixes with 0, and that each
lane takes one such step for each block, the statements of the three hashers say. -/
def Obligations.UpdateFollowsItsFormula : Prop :=
  (∀ (w : Nat) (h k mixWith c1 c2 n t1 t2 t3 : BitVec w) (r1 r2 : Nat), t1 = h ^^^ shuffle k c1 c2 r1 → t2 = rotl t1 r2 →
    t3 = t2 + mixWith → update h k mixWith c1 c2 r1 r2 n = t3 * BitVec.ofNat w 5 + n)
  ∧ update 0#32 0#32 0#32 0xcc9e2d51#32 0x1b873593#32 15 13 0xe6546b64#32 = 0xE6546B64#32
  ∧ update 0#32 1#32 0#32 0xcc9e2d51#32 0x1b873593#32 15 13 0xe6546b64#32 = 0x26CF0576#32
end

