-- ==== Sys2Proof/Laws/Commands.lean ====
section
/-! SUPPORT. What running a command can do, said once for all nine: nothing while faulted, one latched cause, or the command's own
effect (60_exceptions.md R272, R274). -/

namespace Sys2Proof.Machine

/-- The effect of each command once its checks have passed. -/
def effectOf : Instr → State → State
  | .start => startBody
  | .put => putBody
  | .finish => finishBody
  | .hash => hashBody
  | .blkPut => blkPutBody
  | .blkPutn => blkPutnBody
  | .blkRem => blkRemBody
  | .blkFin => blkFinBody
  | .get => getBody

theorem exec_eq_command (i : Instr) (s : State) : exec i s = command (commandCause i s) (effectOf i) s := by
  cases i <;> rfl

/-- While faulted no command runs (R272). -/
theorem exec_faulted {i : Instr} {s : State} (h : s.fault = true) : exec i s = .next s := by
  simp [exec_eq_command, command, h]

theorem raise_eq_faulted {c : Cause} {s : State} (h : s.fault = false) : raise c s = faulted (causeCode c) s := by
  simp [raise, faulted, h]

theorem raise_of_fault {c : Cause} {s : State} (h : s.fault = true) : raise c s = s := by simp [raise, h]

/-- A failing check: the fault and nothing else (R272). -/
theorem exec_of_cause {i : Instr} {s : State} {c : Cause} (h : s.fault = false) (hc : commandCause i s = some c) :
    exec i s = .next (faulted (causeCode c) s) := by
  simp [exec_eq_command, command, hc, h, raise_eq_faulted h]

/-- All checks pass: the command's own effect. -/
theorem exec_of_pass {i : Instr} {s : State} (h : s.fault = false) (hc : commandCause i s = none) :
    exec i s = .next (effectOf i s) := by
  simp [exec_eq_command, command, hc, h]

/-- Everything a command can do. -/
theorem exec_cases {i : Instr} {s t : State} (h : exec i s = .next t) :
    (s.fault = true ∧ t = s)
    ∨ (s.fault = false ∧ ∃ c, commandCause i s = some c ∧ t = faulted (causeCode c) s)
    ∨ (s.fault = false ∧ commandCause i s = none ∧ t = effectOf i s) := by
  cases hf : s.fault
  · cases hc : commandCause i s with
    | none =>
      rw [exec_of_pass hf hc] at h
      exact .inr (.inr ⟨rfl, rfl, by simpa using h.symm⟩)
    | some c =>
      rw [exec_of_cause hf hc] at h
      exact .inr (.inl ⟨rfl, c, rfl, by simpa using h.symm⟩)
  · rw [exec_faulted hf] at h
    exact .inl ⟨rfl, by simpa using h.symm⟩

/-- Every command answers a next state (70_reset_and_hazards.md R309). -/
theorem exec_next (i : Instr) (s : State) : ∃ t, exec i s = .next t := ⟨_, exec_eq_command i s⟩

/-- Every code is one of 1 to 12 (60_exceptions.md R270). -/
theorem causeCode_range (c : Cause) : causeCode c ≠ 0#4 ∧ causeCode c ≤ 12#4 := by cases c <;> decide

@[simp] theorem firstCause_nil : firstCause [] = none := rfl

@[simp] theorem firstCause_some (c : Cause) (rest : List (Option Cause)) : firstCause (some c :: rest) = some c := rfl

@[simp] theorem firstCause_none (rest : List (Option Cause)) : firstCause (none :: rest) = firstCause rest := rfl

theorem mem_of_firstCause {l : List (Option Cause)} {c : Cause} (h : firstCause l = some c) : some c ∈ l := by
  induction l with
  | nil => simp at h
  | cons o rest ih =>
    cases o with
    | none => exact List.mem_cons_of_mem _ (ih h)
    | some d => simp_all

theorem rangeCause_eq_none {n : Nat} {s : State} : rangeCause n s = none ↔ n = 0 ∨ s.addr.toNat + n ≤ memSize s := by
  unfold rangeCause
  split
  · simp; omega
  · simp; omega

theorem rangeCause_eq_some {n : Nat} {s : State} (h0 : 0 < n) (h : memSize s < s.addr.toNat + n) :
    rangeCause n s = some .memRange := if_pos ⟨h0, h⟩

/-- The checks pass exactly when each of them does. -/
theorem commandCause_eq_none {i : Instr} {s : State} :
    commandCause i s = none ↔ phaseCause i s.phase = none ∧ countCause i s = none ∧ operandCause i s = none
      ∧ rangeCause (bytesTouched i s) s = none := by
  unfold commandCause
  cases phaseCause i s.phase <;> cases countCause i s <;> cases operandCause i s <;>
    cases rangeCause (bytesTouched i s) s <;> simp

/-- `CTRL.VARIANT` selects no variant exactly when it holds 3 (10_state.md R22). -/
theorem variantOfCode_eq_none {c : BitVec 2} : variantOfCode c = none ↔ c = 3#2 := by revert c; decide

theorem variantOfCode_eq_some {c : BitVec 2} {v : Variant} : variantOfCode c = some v ↔ c = variantCode v := by
  revert c
  cases v <;> decide

end Sys2Proof.Machine
end

