-- ==== Sys2Proof/Laws/State.lean ====
section
/-! SUPPORT. One lemma per field per shared update of the state, so that no later proof unfolds a record update. -/

namespace Sys2Proof.Machine

/-! `faulted`: the cause and the bit, nothing else (60_exceptions.md R273). -/

@[simp] theorem faulted_ctrl (code : BitVec 4) (s : State) : (faulted code s).ctrl = s.ctrl := rfl
@[simp] theorem faulted_addr (code : BitVec 4) (s : State) : (faulted code s).addr = s.addr := rfl
@[simp] theorem faulted_len (code : BitVec 4) (s : State) : (faulted code s).len = s.len := rfl
@[simp] theorem faulted_seed1Lo (code : BitVec 4) (s : State) : (faulted code s).seed1Lo = s.seed1Lo := rfl
@[simp] theorem faulted_seed1Hi (code : BitVec 4) (s : State) : (faulted code s).seed1Hi = s.seed1Hi := rfl
@[simp] theorem faulted_seed2Lo (code : BitVec 4) (s : State) : (faulted code s).seed2Lo = s.seed2Lo := rfl
@[simp] theorem faulted_seed2Hi (code : BitVec 4) (s : State) : (faulted code s).seed2Hi = s.seed2Hi := rfl
@[simp] theorem faulted_seed3 (code : BitVec 4) (s : State) : (faulted code s).seed3 = s.seed3 := rfl
@[simp] theorem faulted_seed4 (code : BitVec 4) (s : State) : (faulted code s).seed4 = s.seed4 := rfl
@[simp] theorem faulted_phase (code : BitVec 4) (s : State) : (faulted code s).phase = s.phase := rfl
@[simp] theorem faulted_avar (code : BitVec 4) (s : State) : (faulted code s).avar = s.avar := rfl
@[simp] theorem faulted_fault (code : BitVec 4) (s : State) : (faulted code s).fault = true := rfl
@[simp] theorem faulted_cause (code : BitVec 4) (s : State) : (faulted code s).cause = code := rfl
@[simp] theorem faulted_lanes (code : BitVec 4) (s : State) : (faulted code s).lanes = s.lanes := rfl
@[simp] theorem faulted_size (code : BitVec 4) (s : State) : (faulted code s).size = s.size := rfl
@[simp] theorem faulted_buf (code : BitVec 4) (s : State) : (faulted code s).buf = s.buf := rfl
@[simp] theorem faulted_count (code : BitVec 4) (s : State) : (faulted code s).count = s.count := rfl
@[simp] theorem faulted_mem (code : BitVec 4) (s : State) : (faulted code s).mem = s.mem := rfl
@[simp] theorem faulted_memLast (code : BitVec 4) (s : State) : (faulted code s).memLast = s.memLast := rfl
@[simp] theorem faulted_pending (code : BitVec 4) (s : State) : (faulted code s).pending = s.pending := rfl
@[simp] theorem faulted_replies (code : BitVec 4) (s : State) : (faulted code s).replies = s.replies := rfl

/-! `reply`: what the host has read. -/

@[simp] theorem reply_ctrl (r : Reply) (s : State) : (reply r s).ctrl = s.ctrl := rfl
@[simp] theorem reply_addr (r : Reply) (s : State) : (reply r s).addr = s.addr := rfl
@[simp] theorem reply_len (r : Reply) (s : State) : (reply r s).len = s.len := rfl
@[simp] theorem reply_seed1Lo (r : Reply) (s : State) : (reply r s).seed1Lo = s.seed1Lo := rfl
@[simp] theorem reply_seed1Hi (r : Reply) (s : State) : (reply r s).seed1Hi = s.seed1Hi := rfl
@[simp] theorem reply_seed2Lo (r : Reply) (s : State) : (reply r s).seed2Lo = s.seed2Lo := rfl
@[simp] theorem reply_seed2Hi (r : Reply) (s : State) : (reply r s).seed2Hi = s.seed2Hi := rfl
@[simp] theorem reply_seed3 (r : Reply) (s : State) : (reply r s).seed3 = s.seed3 := rfl
@[simp] theorem reply_seed4 (r : Reply) (s : State) : (reply r s).seed4 = s.seed4 := rfl
@[simp] theorem reply_phase (r : Reply) (s : State) : (reply r s).phase = s.phase := rfl
@[simp] theorem reply_avar (r : Reply) (s : State) : (reply r s).avar = s.avar := rfl
@[simp] theorem reply_fault (r : Reply) (s : State) : (reply r s).fault = s.fault := rfl
@[simp] theorem reply_cause (r : Reply) (s : State) : (reply r s).cause = s.cause := rfl
@[simp] theorem reply_lanes (r : Reply) (s : State) : (reply r s).lanes = s.lanes := rfl
@[simp] theorem reply_size (r : Reply) (s : State) : (reply r s).size = s.size := rfl
@[simp] theorem reply_buf (r : Reply) (s : State) : (reply r s).buf = s.buf := rfl
@[simp] theorem reply_count (r : Reply) (s : State) : (reply r s).count = s.count := rfl
@[simp] theorem reply_mem (r : Reply) (s : State) : (reply r s).mem = s.mem := rfl
@[simp] theorem reply_memLast (r : Reply) (s : State) : (reply r s).memLast = s.memLast := rfl
@[simp] theorem reply_pending (r : Reply) (s : State) : (reply r s).pending = s.pending := rfl
@[simp] theorem reply_replies (r : Reply) (s : State) : (reply r s).replies = r :: s.replies := rfl

/-! `startWith`: the body of START (44_stream_commands.md R180). -/

@[simp] theorem startWith_ctrl (v : Variant) (s : State) : (startWith v s).ctrl = s.ctrl := rfl
@[simp] theorem startWith_addr (v : Variant) (s : State) : (startWith v s).addr = s.addr := rfl
@[simp] theorem startWith_len (v : Variant) (s : State) : (startWith v s).len = s.len := rfl
@[simp] theorem startWith_seed1Lo (v : Variant) (s : State) : (startWith v s).seed1Lo = s.seed1Lo := rfl
@[simp] theorem startWith_seed1Hi (v : Variant) (s : State) : (startWith v s).seed1Hi = s.seed1Hi := rfl
@[simp] theorem startWith_seed2Lo (v : Variant) (s : State) : (startWith v s).seed2Lo = s.seed2Lo := rfl
@[simp] theorem startWith_seed2Hi (v : Variant) (s : State) : (startWith v s).seed2Hi = s.seed2Hi := rfl
@[simp] theorem startWith_seed3 (v : Variant) (s : State) : (startWith v s).seed3 = s.seed3 := rfl
@[simp] theorem startWith_seed4 (v : Variant) (s : State) : (startWith v s).seed4 = s.seed4 := rfl
@[simp] theorem startWith_phase (v : Variant) (s : State) : (startWith v s).phase = .absorb := rfl
@[simp] theorem startWith_avar (v : Variant) (s : State) : (startWith v s).avar = v := rfl
@[simp] theorem startWith_fault (v : Variant) (s : State) : (startWith v s).fault = s.fault := rfl
@[simp] theorem startWith_cause (v : Variant) (s : State) : (startWith v s).cause = s.cause := rfl
@[simp] theorem startWith_lanes (v : Variant) (s : State) : (startWith v s).lanes = seedLanes v s := rfl
@[simp] theorem startWith_size (v : Variant) (s : State) : (startWith v s).size = 0#64 := rfl
@[simp] theorem startWith_buf (v : Variant) (s : State) : (startWith v s).buf = Vector.replicate 16 0#8 := rfl
@[simp] theorem startWith_count (v : Variant) (s : State) : (startWith v s).count = 0#4 := rfl
@[simp] theorem startWith_mem (v : Variant) (s : State) : (startWith v s).mem = s.mem := rfl
@[simp] theorem startWith_memLast (v : Variant) (s : State) : (startWith v s).memLast = s.memLast := rfl
@[simp] theorem startWith_pending (v : Variant) (s : State) : (startWith v s).pending = s.pending := rfl
@[simp] theorem startWith_replies (v : Variant) (s : State) : (startWith v s).replies = s.replies := rfl

/-! `submitBlock`: one block of the stream (R182). -/

@[simp] theorem submitBlock_ctrl (blk : List Byte) (s : State) : (submitBlock blk s).ctrl = s.ctrl := rfl
@[simp] theorem submitBlock_addr (blk : List Byte) (s : State) : (submitBlock blk s).addr = s.addr := rfl
@[simp] theorem submitBlock_len (blk : List Byte) (s : State) : (submitBlock blk s).len = s.len := rfl
@[simp] theorem submitBlock_seed1Lo (blk : List Byte) (s : State) : (submitBlock blk s).seed1Lo = s.seed1Lo := rfl
@[simp] theorem submitBlock_seed1Hi (blk : List Byte) (s : State) : (submitBlock blk s).seed1Hi = s.seed1Hi := rfl
@[simp] theorem submitBlock_seed2Lo (blk : List Byte) (s : State) : (submitBlock blk s).seed2Lo = s.seed2Lo := rfl
@[simp] theorem submitBlock_seed2Hi (blk : List Byte) (s : State) : (submitBlock blk s).seed2Hi = s.seed2Hi := rfl
@[simp] theorem submitBlock_seed3 (blk : List Byte) (s : State) : (submitBlock blk s).seed3 = s.seed3 := rfl
@[simp] theorem submitBlock_seed4 (blk : List Byte) (s : State) : (submitBlock blk s).seed4 = s.seed4 := rfl
@[simp] theorem submitBlock_phase (blk : List Byte) (s : State) : (submitBlock blk s).phase = s.phase := rfl
@[simp] theorem submitBlock_avar (blk : List Byte) (s : State) : (submitBlock blk s).avar = s.avar := rfl
@[simp] theorem submitBlock_fault (blk : List Byte) (s : State) : (submitBlock blk s).fault = s.fault := rfl
@[simp] theorem submitBlock_cause (blk : List Byte) (s : State) : (submitBlock blk s).cause = s.cause := rfl
@[simp] theorem submitBlock_lanes (blk : List Byte) (s : State) : (submitBlock blk s).lanes = blockStep s.avar s.lanes blk := rfl
@[simp] theorem submitBlock_size (blk : List Byte) (s : State) : (submitBlock blk s).size = s.size + BitVec.ofNat 64 (blockBytes s.avar) := rfl
@[simp] theorem submitBlock_buf (blk : List Byte) (s : State) : (submitBlock blk s).buf = s.buf := rfl
@[simp] theorem submitBlock_count (blk : List Byte) (s : State) : (submitBlock blk s).count = s.count := rfl
@[simp] theorem submitBlock_mem (blk : List Byte) (s : State) : (submitBlock blk s).mem = s.mem := rfl
@[simp] theorem submitBlock_memLast (blk : List Byte) (s : State) : (submitBlock blk s).memLast = s.memLast := rfl
@[simp] theorem submitBlock_pending (blk : List Byte) (s : State) : (submitBlock blk s).pending = s.pending := rfl
@[simp] theorem submitBlock_replies (blk : List Byte) (s : State) : (submitBlock blk s).replies = s.replies := rfl

/-! `finalizeState`: finalize and FINAL (R183, 45_block_commands.md R213). -/

@[simp] theorem finalizeState_ctrl (s : State) : (finalizeState s).ctrl = s.ctrl := rfl
@[simp] theorem finalizeState_addr (s : State) : (finalizeState s).addr = s.addr := rfl
@[simp] theorem finalizeState_len (s : State) : (finalizeState s).len = s.len := rfl
@[simp] theorem finalizeState_seed1Lo (s : State) : (finalizeState s).seed1Lo = s.seed1Lo := rfl
@[simp] theorem finalizeState_seed1Hi (s : State) : (finalizeState s).seed1Hi = s.seed1Hi := rfl
@[simp] theorem finalizeState_seed2Lo (s : State) : (finalizeState s).seed2Lo = s.seed2Lo := rfl
@[simp] theorem finalizeState_seed2Hi (s : State) : (finalizeState s).seed2Hi = s.seed2Hi := rfl
@[simp] theorem finalizeState_seed3 (s : State) : (finalizeState s).seed3 = s.seed3 := rfl
@[simp] theorem finalizeState_seed4 (s : State) : (finalizeState s).seed4 = s.seed4 := rfl
@[simp] theorem finalizeState_phase (s : State) : (finalizeState s).phase = .final := rfl
@[simp] theorem finalizeState_avar (s : State) : (finalizeState s).avar = s.avar := rfl
@[simp] theorem finalizeState_fault (s : State) : (finalizeState s).fault = s.fault := rfl
@[simp] theorem finalizeState_cause (s : State) : (finalizeState s).cause = s.cause := rfl
@[simp] theorem finalizeState_lanes (s : State) : (finalizeState s).lanes = finalize s.avar s.lanes s.size := rfl
@[simp] theorem finalizeState_size (s : State) : (finalizeState s).size = s.size := rfl
@[simp] theorem finalizeState_buf (s : State) : (finalizeState s).buf = s.buf := rfl
@[simp] theorem finalizeState_count (s : State) : (finalizeState s).count = s.count := rfl
@[simp] theorem finalizeState_mem (s : State) : (finalizeState s).mem = s.mem := rfl
@[simp] theorem finalizeState_memLast (s : State) : (finalizeState s).memLast = s.memLast := rfl
@[simp] theorem finalizeState_pending (s : State) : (finalizeState s).pending = s.pending := rfl
@[simp] theorem finalizeState_replies (s : State) : (finalizeState s).replies = s.replies := rfl

/-! `applyReset`: the reset values, the data memory and the host's side kept (70_reset_and_hazards.md R300, R303). -/

@[simp] theorem applyReset_ctrl (s : State) : (applyReset s).ctrl = 0#2 := rfl
@[simp] theorem applyReset_addr (s : State) : (applyReset s).addr = 0#32 := rfl
@[simp] theorem applyReset_len (s : State) : (applyReset s).len = 0#32 := rfl
@[simp] theorem applyReset_seed1Lo (s : State) : (applyReset s).seed1Lo = 0#32 := rfl
@[simp] theorem applyReset_seed1Hi (s : State) : (applyReset s).seed1Hi = 0#32 := rfl
@[simp] theorem applyReset_seed2Lo (s : State) : (applyReset s).seed2Lo = 0#32 := rfl
@[simp] theorem applyReset_seed2Hi (s : State) : (applyReset s).seed2Hi = 0#32 := rfl
@[simp] theorem applyReset_seed3 (s : State) : (applyReset s).seed3 = 0#32 := rfl
@[simp] theorem applyReset_seed4 (s : State) : (applyReset s).seed4 = 0#32 := rfl
@[simp] theorem applyReset_phase (s : State) : (applyReset s).phase = .idle := rfl
@[simp] theorem applyReset_avar (s : State) : (applyReset s).avar = .x86_32 := rfl
@[simp] theorem applyReset_fault (s : State) : (applyReset s).fault = false := rfl
@[simp] theorem applyReset_cause (s : State) : (applyReset s).cause = 0#4 := rfl
@[simp] theorem applyReset_lanes (s : State) : (applyReset s).lanes = ⟨0#64, 0#64, 0#64, 0#64⟩ := rfl
@[simp] theorem applyReset_size (s : State) : (applyReset s).size = 0#64 := rfl
@[simp] theorem applyReset_buf (s : State) : (applyReset s).buf = Vector.replicate 16 0#8 := rfl
@[simp] theorem applyReset_count (s : State) : (applyReset s).count = 0#4 := rfl
@[simp] theorem applyReset_mem (s : State) : (applyReset s).mem = s.mem := rfl
@[simp] theorem applyReset_memLast (s : State) : (applyReset s).memLast = s.memLast := rfl
@[simp] theorem applyReset_pending (s : State) : (applyReset s).pending = s.pending := rfl
@[simp] theorem applyReset_replies (s : State) : (applyReset s).replies = s.replies := rfl

/-! `raise`: never more than the cause and the bit (60_exceptions.md R271). -/

@[simp] theorem raise_ctrl (c : Cause) (s : State) : (raise c s).ctrl = s.ctrl := by unfold raise; split <;> rfl
@[simp] theorem raise_addr (c : Cause) (s : State) : (raise c s).addr = s.addr := by unfold raise; split <;> rfl
@[simp] theorem raise_len (c : Cause) (s : State) : (raise c s).len = s.len := by unfold raise; split <;> rfl
@[simp] theorem raise_seed1Lo (c : Cause) (s : State) : (raise c s).seed1Lo = s.seed1Lo := by unfold raise; split <;> rfl
@[simp] theorem raise_seed1Hi (c : Cause) (s : State) : (raise c s).seed1Hi = s.seed1Hi := by unfold raise; split <;> rfl
@[simp] theorem raise_seed2Lo (c : Cause) (s : State) : (raise c s).seed2Lo = s.seed2Lo := by unfold raise; split <;> rfl
@[simp] theorem raise_seed2Hi (c : Cause) (s : State) : (raise c s).seed2Hi = s.seed2Hi := by unfold raise; split <;> rfl
@[simp] theorem raise_seed3 (c : Cause) (s : State) : (raise c s).seed3 = s.seed3 := by unfold raise; split <;> rfl
@[simp] theorem raise_seed4 (c : Cause) (s : State) : (raise c s).seed4 = s.seed4 := by unfold raise; split <;> rfl
@[simp] theorem raise_phase (c : Cause) (s : State) : (raise c s).phase = s.phase := by unfold raise; split <;> rfl
@[simp] theorem raise_avar (c : Cause) (s : State) : (raise c s).avar = s.avar := by unfold raise; split <;> rfl
@[simp] theorem raise_fault (c : Cause) (s : State) : (raise c s).fault = true := by
  unfold raise; split <;> simp_all
theorem raise_cause (c : Cause) (s : State) :
    (raise c s).cause = if s.fault = true then s.cause else causeCode c := by
  unfold raise; split <;> rfl
@[simp] theorem raise_lanes (c : Cause) (s : State) : (raise c s).lanes = s.lanes := by unfold raise; split <;> rfl
@[simp] theorem raise_size (c : Cause) (s : State) : (raise c s).size = s.size := by unfold raise; split <;> rfl
@[simp] theorem raise_buf (c : Cause) (s : State) : (raise c s).buf = s.buf := by unfold raise; split <;> rfl
@[simp] theorem raise_count (c : Cause) (s : State) : (raise c s).count = s.count := by unfold raise; split <;> rfl
@[simp] theorem raise_mem (c : Cause) (s : State) : (raise c s).mem = s.mem := by unfold raise; split <;> rfl
@[simp] theorem raise_memLast (c : Cause) (s : State) : (raise c s).memLast = s.memLast := by unfold raise; split <;> rfl
@[simp] theorem raise_pending (c : Cause) (s : State) : (raise c s).pending = s.pending := by unfold raise; split <;> rfl
@[simp] theorem raise_replies (c : Cause) (s : State) : (raise c s).replies = s.replies := by unfold raise; split <;> rfl

end Sys2Proof.Machine
end

