-- ==== Sys2Proof/Laws/Buffer.lean ====
section
/-! SUPPORT. The remainder buffer: what is read back after a write (44_stream_commands.md R182). -/

namespace Sys2Proof.Machine

/-- Sixteen bytes given as a list are the buffer's bytes. -/
theorem bufOfList_toList {l : List Byte} (h : l.length = 16) : (bufOfList l).toList = l := by
  apply List.ext_getElem
  · simp [h]
  · intro i h1 h2
    simp [bufOfList, List.getElem?_eq_getElem h2]

/-- The bytes of `BUF` after a write that fits. -/
theorem bufWrite_toList (buf : Vector Byte 16) {k : Nat} {data : List Byte} (h : k + data.length ≤ 16) :
    (bufWrite buf k data).toList = buf.toList.take k ++ data ++ buf.toList.drop (k + data.length) := by
  apply bufOfList_toList
  simp
  omega

@[simp] theorem bufRead_length (buf : Vector Byte 16) (n : Nat) : (bufRead buf n).length = min n 16 := by
  simp [bufRead]

@[simp] theorem bufRead_zero (buf : Vector Byte 16) : bufRead buf 0 = [] := rfl

/-- Writing right behind the valid bytes appends. -/
theorem bufRead_bufWrite (buf : Vector Byte 16) {k : Nat} {data : List Byte} (h : k + data.length ≤ 16) :
    bufRead (bufWrite buf k data) (k + data.length) = bufRead buf k ++ data := by
  have hk : (buf.toList.take k).length = k := by simp; omega
  rw [bufRead, bufWrite_toList buf h, bufRead, List.take_append_of_le_length (by simp; omega), List.take_of_length_le (by simp)]

/-- Writing no byte changes nothing. -/
theorem bufWrite_nil (buf : Vector Byte 16) {k : Nat} (h : k ≤ 16) : bufWrite buf k [] = buf := by
  apply Vector.toList_inj.mp
  rw [bufWrite_toList buf (by simpa using h)]
  simp

/-- Byte `j` of `BUF` after a write that fits. -/
theorem bufWrite_getD (buf : Vector Byte 16) {k : Nat} {data : List Byte} (h : k + data.length ≤ 16) (j : Nat) :
    (bufWrite buf k data).toList.getD j 0#8 =
      if k ≤ j ∧ j < k + data.length then data.getD (j - k) 0#8 else buf.toList.getD j 0#8 := by
  have hk : (buf.toList.take k).length = k := by simp; omega
  rw [bufWrite_toList buf h]
  simp only [List.getD_eq_getElem?_getD]
  by_cases h1 : j < k
  · rw [if_neg (by omega), List.append_assoc, List.getElem?_append_left (by omega), List.getElem?_take_of_lt h1]
  · by_cases h2 : j < k + data.length
    · rw [if_pos ⟨by omega, h2⟩, List.append_assoc, List.getElem?_append_right (by omega), hk,
        List.getElem?_append_left (by omega)]
    · rw [if_neg (by omega), List.getElem?_append_right (by simp; omega), List.getElem?_drop]
      congr 2
      simp
      omega

end Sys2Proof.Machine
end

