-- ==== Sys2Proof/Laws/Hasher.lean ====
section
/-! SUPPORT. The Block Hasher as pure functions of lanes and bytes: an empty remainder, runs of block steps, and the lane
invariants of 10_state.md R30. -/

namespace Sys2Proof.Machine

@[simp] theorem lo32_zext64 (v : Word) : lo32 (zext64 v) = v := by
  unfold lo32 zext64
  ext i hi
  simp [hi]
  omega

@[simp] theorem hi32_zext64 (v : Word) : hi32 (zext64 v) = 0#32 := by
  unfold hi32 zext64
  ext i hi
  simp

/-- Bit `i` of a concatenation (00_scope.md R9). -/
theorem join64_getLsbD (hi lo : Word) (i : Nat) :
    (join64 hi lo).getLsbD i = if i < 32 then lo.getLsbD i else hi.getLsbD (i - 32) :=
  BitVec.getLsbD_append (x := hi) (y := lo)

/-- A 64-bit value is its two halves (00_scope.md R9). -/
theorem join64_halves (v : DWord) : join64 (hi32 v) (lo32 v) = v := by
  apply BitVec.eq_of_getLsbD_eq
  intro i hi
  rw [join64_getLsbD]
  unfold hi32 lo32
  split
  · rename_i h
    simp [h]
  · rename_i h
    have h1 : 32 + (i - 32) = i := by omega
    have h2 : i - 32 < 32 := by omega
    simp [h1, h2]

@[simp] theorem lo32_join64 (hi lo : Word) : lo32 (join64 hi lo) = lo := by
  unfold lo32
  apply BitVec.eq_of_getLsbD_eq
  intro i h
  simp [join64_getLsbD, h]

@[simp] theorem hi32_join64 (hi lo : Word) : hi32 (join64 hi lo) = hi := by
  unfold hi32
  apply BitVec.eq_of_getLsbD_eq
  intro i h
  simp [join64_getLsbD, h]

theorem blockBytes_pos (v : Variant) : 0 < blockBytes v := by cases v <;> decide

theorem blockBytes_le (v : Variant) : blockBytes v ≤ 16 := by cases v <;> decide

theorem resultBytes_eq_blockBytes (v : Variant) : resultBytes v = blockBytes v := by cases v <;> rfl

@[simp] theorem slice_nil (a b : Nat) : slice [] a b = [] := by simp [slice]

@[simp] theorem unpackLE_length (v n : Nat) : (unpackLE v n).length = n := by
  induction n generalizing v with
  | zero => rfl
  | succ n ih => simp [unpackLE, ih]

/-- The result has `RB` bytes (44_stream_commands.md R185). -/
@[simp] theorem result_length (v : Variant) (h : Lanes) : (result v h).length = resultBytes v := by
  cases v <;> simp [result, resultX86_32, resultX86_128, resultX64_128, resultBytes]

/-- An empty remainder changes no lane (90_conflicts.md C10). -/
@[simp] theorem remainder_nil (v : Variant) (h : Lanes) : remainder v h [] = h := by
  cases v <;> simp [remainder, remainderX86_32, remainderX86_128, remainderX64_128, foldPart32, foldPart64]

@[simp] theorem blockSteps_zero (v : Variant) (bytes : List Byte) (h : Lanes) : blockSteps v 0 bytes h = h := rfl

theorem blockSteps_succ (v : Variant) (n : Nat) (bytes : List Byte) (h : Lanes) :
    blockSteps v (n + 1) bytes h =
      blockSteps v n (bytes.drop (blockBytes v)) (blockStep v h (bytes.take (blockBytes v))) := rfl

/-- A run of block steps looks at its own whole blocks only. -/
theorem blockSteps_append (v : Variant) (n : Nat) (xs ys : List Byte) (h : Lanes)
    (hx : n * blockBytes v ≤ xs.length) : blockSteps v n (xs ++ ys) h = blockSteps v n xs h := by
  induction n generalizing xs h with
  | zero => rfl
  | succ n ih =>
    have hmul : (n + 1) * blockBytes v = n * blockBytes v + blockBytes v := by ring
    have hb : blockBytes v ≤ xs.length := by omega
    rw [blockSteps_succ, blockSteps_succ, List.take_append_of_le_length hb, List.drop_append_of_le_length hb,
      ih _ _ (by simp; omega)]

/-- A run of block steps is a shorter run and then the rest. -/
theorem blockSteps_add (v : Variant) (m n : Nat) (bytes : List Byte) (h : Lanes) :
    blockSteps v (m + n) bytes h =
      blockSteps v n (bytes.drop (m * blockBytes v)) (blockSteps v m bytes h) := by
  induction m generalizing bytes h with
  | zero => simp
  | succ m ih =>
    have : m + 1 + n = (m + n) + 1 := by omega
    rw [this, blockSteps_succ, ih, blockSteps_succ, List.drop_drop]
    congr 2
    ring

theorem lanesLegal_zero (v : Variant) : lanesLegal v ⟨0#64, 0#64, 0#64, 0#64⟩ := by cases v <;> decide

/-- Every block step keeps the lane invariants (10_state.md R30). -/
theorem blockStep_lanesLegal {v : Variant} {h : Lanes} (hl : lanesLegal v h) (blk : List Byte) :
    lanesLegal v (blockStep v h blk) := by
  cases v
  · simp only [lanesLegal, blockStep, blockStepX86_32, hi32_zext64, true_and] at hl ⊢
    exact hl.2
  · simp only [lanesLegal, blockStep, blockStepX86_128, hi32_zext64, and_self]
  · simp only [lanesLegal, blockStep, blockStepX64_128] at hl ⊢
    exact hl

theorem blockSteps_lanesLegal {v : Variant} {h : Lanes} (hl : lanesLegal v h) (n : Nat) (bytes : List Byte) :
    lanesLegal v (blockSteps v n bytes h) := by
  induction n generalizing h bytes with
  | zero => exact hl
  | succ n ih => exact ih (blockStep_lanesLegal hl _) _

theorem foldPart32_hi {p : LaneParams 32} {h : DWord} (hh : hi32 h = 0#32) (part : List Byte) :
    hi32 (foldPart32 p h part) = 0#32 := by
  unfold foldPart32
  split
  · simp
  · exact hh

/-- The remainder step keeps the lane invariants (R30). -/
theorem remainder_lanesLegal {v : Variant} {h : Lanes} (hl : lanesLegal v h) (t : List Byte) :
    lanesLegal v (remainder v h t) := by
  cases v
  · simp only [lanesLegal, remainder, remainderX86_32] at hl ⊢
    split
    · simp only [hi32_zext64, true_and]
      exact hl.2
    · exact hl
  · simp only [lanesLegal, remainder, remainderX86_128] at hl ⊢
    exact ⟨foldPart32_hi hl.1 _, foldPart32_hi hl.2.1 _, foldPart32_hi hl.2.2.1 _, foldPart32_hi hl.2.2.2 _⟩
  · simp only [lanesLegal, remainder, remainderX64_128] at hl ⊢
    exact hl

/-- Finalize keeps the lane invariants (R30). -/
theorem finalize_lanesLegal {v : Variant} {h : Lanes} (hl : lanesLegal v h) (size : DWord) :
    lanesLegal v (finalize v h size) := by
  cases v
  · simp only [lanesLegal, finalize, finalizeX86_32, hi32_zext64, true_and] at hl ⊢
    exact hl.2
  · simp only [lanesLegal, finalize, finalizeX86_128, hi32_zext64, and_self]
  · simp only [lanesLegal, finalize, finalizeX64_128] at hl ⊢
    exact hl

/-- The seeded lanes meet the lane invariants (R30, R23). -/
theorem seedLanes_lanesLegal (v : Variant) (s : State) : lanesLegal v (seedLanes v s) := by
  cases v <;> simp [lanesLegal, seedLanes]

end Sys2Proof.Machine
end

