-- ==== Sys2Proof/Laws/Memory.lean ====
section
/-! SUPPORT. The data memory: a read returns the byte last written there, a write leaves every other byte alone and keeps the
canonical form. -/

namespace Sys2Proof.Machine

@[simp] theorem loadByte_nil (a : Nat) : loadByte [] a = Config.blankByte := rfl

@[simp] theorem loadByte_cons (k : Nat) (v : Byte) (rest : List Host.Cell) (a : Nat) :
    loadByte ((k, v) :: rest) a = if k = a then v else loadByte rest a := rfl

/-- An address that no entry lists reads as the blank byte. -/
theorem loadByte_eq_blank {m : List Host.Cell} {a : Nat} (h : ∀ c ∈ m, c.1 ≠ a) : loadByte m a = Config.blankByte := by
  induction m with
  | nil => rfl
  | cons c rest ih =>
    obtain ⟨k, v⟩ := c
    have hk : k ≠ a := h (k, v) (by simp)
    simp only [loadByte_cons, if_neg hk]
    exact ih fun c hc => h c (by simp [hc])

theorem mem_cellOf {a : Nat} {v : Byte} {c : Host.Cell} (h : c ∈ cellOf a v) : c = (a, v) ∧ v ≠ Config.blankByte := by
  unfold cellOf at h
  split at h
  · simp at h
  · exact ⟨by simpa using h, by assumption⟩

/-- A cell of the written memory is the one written or one that was there. -/
theorem mem_storeByte {m : List Host.Cell} {a : Nat} {v : Byte} {c : Host.Cell} (h : c ∈ storeByte m a v) :
    (c = (a, v) ∧ v ≠ Config.blankByte) ∨ c ∈ m := by
  induction m with
  | nil => exact .inl (mem_cellOf h)
  | cons d rest ih =>
    obtain ⟨k, w⟩ := d
    unfold storeByte at h
    split at h
    · rcases List.mem_cons.mp h with rfl | h
      · exact .inr (by simp)
      · exact (ih h).imp id (List.mem_cons_of_mem _)
    · split at h
      · rcases List.mem_append.mp h with h | h
        · exact .inl (mem_cellOf h)
        · exact .inr (List.mem_cons_of_mem _ h)
      · rcases List.mem_append.mp h with h | h
        · exact .inl (mem_cellOf h)
        · exact .inr h

/-- Writing a byte keeps the canonical form. -/
theorem storeByte_wf {m : List Host.Cell} (h : Memory.wf m) (a : Nat) (v : Byte) : Memory.wf (storeByte m a v) := by
  refine ⟨?_, fun c hc => ?_⟩
  · obtain ⟨hs, -⟩ := h
    induction m with
    | nil => unfold storeByte cellOf; split <;> simp
    | cons d rest ih =>
      obtain ⟨k, w⟩ := d
      obtain ⟨hk, hr⟩ := List.pairwise_cons.mp hs
      unfold storeByte
      split
      · rename_i hlt
        refine List.pairwise_cons.mpr ⟨fun c hc => ?_, ih hr⟩
        rcases mem_storeByte hc with ⟨rfl, -⟩ | hc
        · exact hlt
        · exact hk c hc
      · split
        · rename_i heq
          subst heq
          unfold cellOf
          split
          · exact hr
          · exact List.pairwise_cons.mpr ⟨hk, hr⟩
        · rename_i hlt hne
          have hak : a < k := by omega
          unfold cellOf
          split
          · exact hs
          · refine List.pairwise_cons.mpr ⟨fun c hc => ?_, hs⟩
            rcases List.mem_cons.mp hc with rfl | hc
            · exact hak
            · exact lt_trans hak (hk c hc)
  · rcases mem_storeByte hc with ⟨rfl, hv⟩ | hc
    · exact hv
    · exact h.2 c hc

theorem loadByte_cellOf_append (a : Nat) (v : Byte) (rest : List Host.Cell) (b : Nat)
    (h : v = Config.blankByte → b = a → loadByte rest b = Config.blankByte) :
    loadByte (cellOf a v ++ rest) b = if b = a then v else loadByte rest b := by
  unfold cellOf
  by_cases hv : v = Config.blankByte
  · by_cases hb : b = a
    · subst hb
      simp [hv, h hv rfl]
    · simp [hv, hb]
  · by_cases hb : b = a
    · simp [hv, hb]
    · simp [hv, hb, Ne.symm hb]

/-- A read returns the byte last written at its address, and every other address reads as before (20_memory.md R67). -/
theorem loadByte_storeByte {m : List Host.Cell} (h : Memory.wf m) (a : Nat) (v : Byte) (b : Nat) :
    loadByte (storeByte m a v) b = if b = a then v else loadByte m b := by
  obtain ⟨hs, -⟩ := h
  induction m with
  | nil => simpa [storeByte] using loadByte_cellOf_append a v [] b fun _ _ => rfl
  | cons d rest ih =>
    obtain ⟨k, w⟩ := d
    obtain ⟨hk, hr⟩ := List.pairwise_cons.mp hs
    unfold storeByte
    split
    · rename_i hlt
      rw [loadByte_cons, ih hr, loadByte_cons]
      by_cases hb : b = a
      · subst hb; simp [Nat.ne_of_lt hlt]
      · simp [hb]
    · split
      · rename_i heq
        subst heq
        rw [loadByte_cellOf_append]
        · by_cases hb : b = k
          · simp [hb]
          · simp [hb, Ne.symm hb]
        · rintro - rfl
          exact loadByte_eq_blank fun c hc => (Nat.ne_of_lt (hk c hc)).symm
      · rename_i hlt hne
        rw [loadByte_cellOf_append]
        rintro - rfl
        refine loadByte_eq_blank fun c hc => ?_
        rcases List.mem_cons.mp hc with rfl | hc
        · exact hne
        · have := hk c hc
          simp only at this
          omega

/-- The data memory right after power-on reset is in canonical form. -/
theorem reset_mem_wf : Memory.wf State.reset.mem := by simp [Memory.wf, State.reset]

/-- Writing bytes keeps the canonical form. -/
theorem memWrite_wf {m : List Host.Cell} (h : Memory.wf m) (a : Nat) (bytes : List Byte) :
    Memory.wf (memWrite m a bytes) := by
  induction bytes generalizing m a with
  | nil => exact h
  | cons b bs ih => exact ih (storeByte_wf h a b) (a + 1)

/-- A cell of the written memory lies in the written range or was there. -/
theorem mem_memWrite {m : List Host.Cell} {a : Nat} {bytes : List Byte} {c : Host.Cell}
    (h : c ∈ memWrite m a bytes) : (a ≤ c.1 ∧ c.1 < a + bytes.length) ∨ c ∈ m := by
  induction bytes generalizing m a with
  | nil => exact .inr h
  | cons b bs ih =>
    simp only [List.length_cons]
    rcases ih h with h | h
    · left; omega
    · rcases mem_storeByte h with ⟨rfl, -⟩ | h
      · left; constructor
        · exact le_refl _
        · show a < _
          omega
      · exact .inr h

/-- What each byte reads as after a write: the written byte inside the range, the old one outside (00_scope.md R11). -/
theorem loadByte_memWrite {m : List Host.Cell} (h : Memory.wf m) (a : Nat) (bytes : List Byte) (b : Nat) :
    loadByte (memWrite m a bytes) b =
      if a ≤ b ∧ b < a + bytes.length then bytes.getD (b - a) Config.blankByte else loadByte m b := by
  induction bytes generalizing m a with
  | nil =>
    have : ¬(a ≤ b ∧ b < a + ([] : List Byte).length) := by simp
    rw [if_neg this]; rfl
  | cons x xs ih =>
    rw [memWrite, ih (storeByte_wf h a x), loadByte_storeByte h]
    simp only [List.length_cons]
    by_cases hb : b = a
    · subst hb
      simp
    · by_cases hin : a + 1 ≤ b ∧ b < a + 1 + xs.length
      · rw [if_pos hin, if_pos (by omega)]
        obtain ⟨n, hn⟩ : ∃ n, b - a = n + 1 := ⟨b - a - 1, by omega⟩
        have : b - (a + 1) = n := by omega
        simp [hn, this]
      · rw [if_neg hin, if_neg hb, if_neg (by omega)]

@[simp] theorem memRead_length (m : List Host.Cell) (a n : Nat) : (memRead m a n).length = n := by
  induction n generalizing a with
  | zero => rfl
  | succ n ih => simp [memRead, ih]

/-- A long read is a short one followed by the rest. -/
theorem memRead_add (m : List Host.Cell) (a i j : Nat) :
    memRead m a (i + j) = memRead m a i ++ memRead m (a + i) j := by
  induction i generalizing a with
  | zero => simp [memRead]
  | succ i ih =>
    have : i + 1 + j = (i + j) + 1 := by omega
    rw [this, memRead, ih, memRead]
    simp [Nat.add_assoc, Nat.add_comm 1 i]

theorem memRead_getD (m : List Host.Cell) (a n j : Nat) (h : j < n) :
    (memRead m a n).getD j 0#8 = loadByte m (a + j) := by
  induction n generalizing a j with
  | zero => omega
  | succ n ih =>
    cases j with
    | zero => simp [memRead]
    | succ j =>
      have := ih (a + 1) j (by omega)
      simp only [memRead, List.getD_cons_succ, this]
      congr 1
      omega

/-- A slice of a read is the read of the slice. -/
theorem memRead_slice (m : List Host.Cell) (a : Nat) {i n k : Nat} (h : i + n ≤ k) :
    ((memRead m a k).drop i).take n = memRead m (a + i) n := by
  obtain ⟨r, rfl⟩ : ∃ r, k = i + (n + r) := ⟨k - i - n, by omega⟩
  rw [memRead_add, List.drop_left' (by simp), memRead_add, List.take_left' (by simp)]

/-- Reading depends on the bytes alone: memories that agree on the range read the same. -/
theorem memRead_congr {m m' : List Host.Cell} {a a' n : Nat}
    (h : ∀ j, j < n → loadByte m (a + j) = loadByte m' (a' + j)) : memRead m a n = memRead m' a' n := by
  induction n generalizing a a' with
  | zero => rfl
  | succ n ih =>
    have h0 := h 0 (by omega)
    simp only [Nat.add_zero] at h0
    rw [memRead, memRead, h0, ih fun j hj => ?_]
    have := h (j + 1) (by omega)
    simpa [Nat.add_assoc, Nat.add_comm 1 j] using this

end Sys2Proof.Machine
end

