-- ==== Sys2Proof/Laws/Stream.lean ====
section
/-! SUPPORT. The stream layer in closed form: a PUT submits the whole blocks of the buffered bytes followed by the chunk, and keeps the
rest (44_stream_commands.md R182). -/

namespace Sys2Proof.Machine

/-- The loop of PUT in closed form: `n` block steps, and `SIZE` advanced by `n * B`. -/
theorem submitBlocks_eq (n : Nat) (bytes : List Byte) (s : State) :
    submitBlocks n bytes s = { s with
      lanes := blockSteps s.avar n bytes s.lanes
      size := s.size + BitVec.ofNat 64 (n * blockBytes s.avar) } := by
  induction n generalizing bytes s with
  | zero => simp [submitBlocks]
  | succ n ih =>
    rw [submitBlocks, ih]
    have : (n + 1) * blockBytes s.avar = blockBytes s.avar + n * blockBytes s.avar := by ring
    simp [submitBlock, blockSteps_succ, this, BitVec.ofNat_add, BitVec.add_assoc]

/-- A run of block steps as a loop over block numbers (45_block_commands.md R211). -/
theorem blockSteps_eq_foldl (v : Variant) (n : Nat) (bytes : List Byte) (h : Lanes) :
    blockSteps v n bytes h =
      (List.range n).foldl (fun h j => blockStep v h ((bytes.drop (j * blockBytes v)).take (blockBytes v))) h := by
  induction n with
  | zero => rfl
  | succ n ih =>
    rw [blockSteps_add v n 1, ih, List.range_succ, List.foldl_append]
    rfl

/-- The buffered bytes followed by a chunk. -/
def gathered (data : List Byte) (s : State) : List Byte := bufRead s.buf s.count.toNat ++ data

theorem gathered_length (data : List Byte) (s : State) : (gathered data s).length = s.count.toNat + data.length := by
  have := s.count.isLt
  simp [gathered]
  omega

/-- PUT on the bytes of a chunk: what becomes of the lanes, `SIZE`, `COUNT` and the live bytes of `BUF`, with every other field as it
was. -/
theorem absorb_spec (data : List Byte) (s : State) (hc : s.count.toNat < blockBytes s.avar) :
    absorb data s = { s with
        lanes := blockSteps s.avar ((gathered data s).length / blockBytes s.avar) (gathered data s) s.lanes
        size := s.size + BitVec.ofNat 64 ((gathered data s).length / blockBytes s.avar * blockBytes s.avar)
        buf := (absorb data s).buf
        count := BitVec.ofNat 4 ((gathered data s).length % blockBytes s.avar) }
    ∧ bufRead (absorb data s).buf ((gathered data s).length % blockBytes s.avar) =
        (gathered data s).drop ((gathered data s).length / blockBytes s.avar * blockBytes s.avar) := by
  have hb := blockBytes_le s.avar
  have hpos := blockBytes_pos s.avar
  have hlen := gathered_length data s
  unfold absorb
  simp only
  split
  · rename_i hlt
    rw [← hlen] at hlt
    have hd : (gathered data s).length / blockBytes s.avar = 0 := Nat.div_eq_of_lt hlt
    have hm : (gathered data s).length % blockBytes s.avar = s.count.toNat + data.length := by
      rw [Nat.mod_eq_of_lt hlt, hlen]
    rw [hd, hm]
    refine ⟨by simp, ?_⟩
    rw [bufRead_bufWrite _ (by omega)]
    simp [gathered]
  · rename_i hge
    split
    · rename_i hne
      have hfill : (data.take (blockBytes s.avar - s.count.toNat)).length = blockBytes s.avar - s.count.toNat := by
        simp; omega
      have hblk : bufRead (bufWrite s.buf s.count.toNat (data.take (blockBytes s.avar - s.count.toNat)))
          (blockBytes s.avar) = (gathered data s).take (blockBytes s.avar) := by
        have h := bufRead_bufWrite s.buf (k := s.count.toNat)
          (data := data.take (blockBytes s.avar - s.count.toNat)) (by omega)
        have hk : s.count.toNat + (data.take (blockBytes s.avar - s.count.toNat)).length = blockBytes s.avar := by
          omega
        rw [hk] at h
        rw [h, gathered, List.take_append]
        have := s.count.isLt
        congr 1
        · exact (List.take_of_length_le (by simp; omega)).symm
        · congr 1
          simp
          omega
      have hdrop : data.drop (blockBytes s.avar - s.count.toNat) = (gathered data s).drop (blockBytes s.avar) := by
        have hl : (bufRead s.buf s.count.toNat).length = s.count.toNat := by
          have := s.count.isLt
          rw [bufRead_length]; omega
        rw [gathered, List.drop_append, List.drop_eq_nil_of_le (as := bufRead s.buf s.count.toNat) (by omega), List.nil_append, hl]
      have hrest : (data.drop (blockBytes s.avar - s.count.toNat)).length =
          (gathered data s).length - blockBytes s.avar := by rw [hdrop]; simp
      have hq : (gathered data s).length / blockBytes s.avar =
          ((gathered data s).length - blockBytes s.avar) / blockBytes s.avar + 1 :=
        Nat.div_eq_sub_div hpos (by omega)
      have hmod : ((gathered data s).length - blockBytes s.avar) % blockBytes s.avar =
          (gathered data s).length % blockBytes s.avar := (Nat.mod_eq_sub_mod (by omega)).symm
      have htail : ((gathered data s).length - blockBytes s.avar) -
          ((gathered data s).length - blockBytes s.avar) / blockBytes s.avar * blockBytes s.avar =
          (gathered data s).length % blockBytes s.avar := by
        rw [← hmod]
        have := Nat.div_add_mod ((gathered data s).length - blockBytes s.avar) (blockBytes s.avar)
        rw [Nat.mul_comm] at this
        omega
      have hlast : ∀ n, (data.drop (blockBytes s.avar - s.count.toNat)).drop (n * blockBytes s.avar) =
          (gathered data s).drop ((n + 1) * blockBytes s.avar) := by
        intro n
        rw [hdrop, List.drop_drop]
        congr 1
        ring
      simp only [absorbWhole, submitBlocks_eq, submitBlock, hrest, hblk, hlast, ← hq]
      constructor
      · rw [hdrop, hq, ← blockSteps_succ]
        have h1 : (((gathered data s).length - blockBytes s.avar) / blockBytes s.avar + 1) * blockBytes s.avar =
            blockBytes s.avar + ((gathered data s).length - blockBytes s.avar) / blockBytes s.avar * blockBytes s.avar := by
          ring
        have h2 : ((gathered data s).drop
            ((((gathered data s).length - blockBytes s.avar) / blockBytes s.avar + 1) * blockBytes s.avar)).length =
            (gathered data s).length % blockBytes s.avar := by
          rw [List.length_drop, ← htail]; omega
        simp only [h2]
        simp only [h1, BitVec.ofNat_add, BitVec.add_assoc]
      · have h2 : ((gathered data s).drop ((gathered data s).length / blockBytes s.avar * blockBytes s.avar)).length =
            (gathered data s).length % blockBytes s.avar := by
          rw [List.length_drop, ← htail, hq]; have := Nat.add_mul (((gathered data s).length - blockBytes s.avar) / blockBytes s.avar) 1 (blockBytes s.avar); omega
        have h3 := Nat.mod_lt (gathered data s).length hpos
        have := bufRead_bufWrite (bufWrite s.buf s.count.toNat (data.take (blockBytes s.avar - s.count.toNat))) (k := 0)
          (data := (gathered data s).drop ((gathered data s).length / blockBytes s.avar * blockBytes s.avar)) (by omega)
        simpa [h2] using this
    · rename_i hz
      have hz : s.count.toNat = 0 := by omega
      have hg : gathered data s = data := by simp [gathered, hz]
      rw [hg] at hlen ⊢
      have h3 := Nat.mod_lt data.length hpos
      have h2 : (data.drop (data.length / blockBytes s.avar * blockBytes s.avar)).length =
          data.length % blockBytes s.avar := by
        rw [List.length_drop]
        have := Nat.div_add_mod data.length (blockBytes s.avar)
        rw [Nat.mul_comm] at this
        omega
      simp only [absorbWhole, submitBlocks_eq]
      refine ⟨by simp only [h2], ?_⟩
      have := bufRead_bufWrite s.buf (k := 0)
        (data := data.drop (data.length / blockBytes s.avar * blockBytes s.avar)) (by omega)
      simpa [h2] using this

/-- PUT on the bytes of a chunk: the bytes of `BUF` at or above the new `COUNT` (10_state.md R31). -/
theorem absorb_dead (data : List Byte) (s : State) (hc : s.count.toNat < blockBytes s.avar) (j : Nat)
    (hj : (gathered data s).length % blockBytes s.avar ≤ j) :
    (absorb data s).buf.toList.getD j 0#8 =
      if (gathered data s).length / blockBytes s.avar ≠ 0 ∧ s.count ≠ 0#4 ∧ s.count.toNat ≤ j ∧ j < blockBytes s.avar
      then data.getD (j - s.count.toNat) 0#8 else s.buf.toList.getD j 0#8 := by
  have hb := blockBytes_le s.avar
  have hpos := blockBytes_pos s.avar
  have hlen := gathered_length data s
  unfold absorb
  simp only
  split
  · rename_i hlt
    rw [← hlen] at hlt
    have hd : (gathered data s).length / blockBytes s.avar = 0 := Nat.div_eq_of_lt hlt
    rw [Nat.mod_eq_of_lt hlt] at hj
    simp only [hd]
    rw [bufWrite_getD _ (by omega), if_neg (by omega)]
    simp
  · rename_i hge
    have hd : (gathered data s).length / blockBytes s.avar ≠ 0 := by
      have := (Nat.div_pos_iff (a := (gathered data s).length)
        (b := blockBytes s.avar)).mpr ⟨hpos, by omega⟩
      omega
    split
    · rename_i hne
      have hne' : s.count ≠ 0#4 := by rintro h; simp [h] at hne
      have hcl := s.count.isLt
      simp only [absorbWhole, submitBlocks_eq, submitBlock]
      have hdl : (data.drop (blockBytes s.avar - s.count.toNat)).length =
          (gathered data s).length - blockBytes s.avar := by
        rw [hlen, List.length_drop]; omega
      have htl : ((data.drop (blockBytes s.avar - s.count.toNat)).drop
          ((data.drop (blockBytes s.avar - s.count.toNat)).length / blockBytes s.avar * blockBytes s.avar)).length =
          (gathered data s).length % blockBytes s.avar := by
        rw [List.length_drop, hdl]
        rw [Nat.mod_eq_sub_mod (by omega)]
        have := Nat.div_add_mod ((gathered data s).length - blockBytes s.avar) (blockBytes s.avar)
        rw [Nat.mul_comm] at this
        omega
      have hm := Nat.mod_lt (gathered data s).length hpos
      rw [bufWrite_getD _ (by omega), if_neg (by omega), bufWrite_getD _ (by simp; omega)]
      have hmin : (data.take (blockBytes s.avar - s.count.toNat)).length = blockBytes s.avar - s.count.toNat := by
        simp; omega
      by_cases hin : s.count.toNat ≤ j ∧ j < blockBytes s.avar
      · rw [if_pos (by omega), if_pos ⟨hd, hne', hin⟩]
        simp only [List.getD_eq_getElem?_getD]
        rw [List.getElem?_take_of_lt (by omega)]
      · rw [if_neg (by omega), if_neg (by rintro ⟨-,-,h⟩; exact hin h)]
    · rename_i hz
      have hz : s.count.toNat = 0 := by omega
      have hz' : s.count = 0#4 := by apply BitVec.eq_of_toNat_eq; simpa using hz
      simp only [absorbWhole, submitBlocks_eq]
      have hg : (gathered data s).length = data.length := by omega
      have htl : (data.drop (data.length / blockBytes s.avar * blockBytes s.avar)).length =
          data.length % blockBytes s.avar := by
        rw [List.length_drop]
        have := Nat.div_add_mod data.length (blockBytes s.avar)
        rw [Nat.mul_comm] at this
        omega
      have hm := Nat.mod_lt data.length hpos
      rw [hg] at hj
      rw [bufWrite_getD _ (by omega), if_neg (by omega)]
      simp [hz']

end Sys2Proof.Machine
end

