-- ==== Sys2Proof/Laws/Effects.lean ====
section
/-! SUPPORT. The frame of the nine effects: what the body of a command leaves alone (10_state.md R22 to R25, 60_exceptions.md
R271). -/

namespace Sys2Proof.Machine

/-- The fields no command writes: the host's registers, the fault, the size of the memory and the host's side. -/
structure SameHostSide (s t : State) : Prop where
  ctrl : t.ctrl = s.ctrl
  addr : t.addr = s.addr
  len : t.len = s.len
  seed1Lo : t.seed1Lo = s.seed1Lo
  seed1Hi : t.seed1Hi = s.seed1Hi
  seed2Lo : t.seed2Lo = s.seed2Lo
  seed2Hi : t.seed2Hi = s.seed2Hi
  seed3 : t.seed3 = s.seed3
  seed4 : t.seed4 = s.seed4
  fault : t.fault = s.fault
  cause : t.cause = s.cause
  memLast : t.memLast = s.memLast
  pending : t.pending = s.pending
  replies : t.replies = s.replies

theorem SameHostSide.refl (s : State) : SameHostSide s s := by constructor <;> rfl

theorem SameHostSide.trans {s t u : State} (h : SameHostSide s t) (k : SameHostSide t u) : SameHostSide s u :=
  ⟨k.ctrl.trans h.ctrl, k.addr.trans h.addr, k.len.trans h.len, k.seed1Lo.trans h.seed1Lo, k.seed1Hi.trans h.seed1Hi,
    k.seed2Lo.trans h.seed2Lo, k.seed2Hi.trans h.seed2Hi, k.seed3.trans h.seed3, k.seed4.trans h.seed4,
    k.fault.trans h.fault, k.cause.trans h.cause, k.memLast.trans h.memLast, k.pending.trans h.pending,
    k.replies.trans h.replies⟩

theorem startBody_host (s : State) : SameHostSide s (startBody s) := by
  unfold startBody
  split <;> constructor <;> rfl

theorem absorb_host (data : List Byte) (s : State) : SameHostSide s (absorb data s) := by
  simp only [absorb, absorbWhole, submitBlocks_eq]
  split
  · constructor <;> rfl
  · split <;> constructor <;> rfl

theorem finishBody_host (s : State) : SameHostSide s (finishBody s) := by
  unfold finishBody foldBuffer
  split <;> constructor <;> rfl

theorem effectOf_host (i : Instr) (s : State) : SameHostSide s (effectOf i s) := by
  cases i
  · exact startBody_host s
  · exact absorb_host _ s
  · exact finishBody_host s
  · exact (startBody_host s).trans ((absorb_host _ _).trans (finishBody_host _))
  all_goals constructor <;> rfl

/-- `absorb` writes neither the phase, the variant nor the memory. -/
theorem absorb_keeps (data : List Byte) (s : State) :
    (absorb data s).phase = s.phase ∧ (absorb data s).avar = s.avar ∧ (absorb data s).mem = s.mem := by
  simp only [absorb, absorbWhole, submitBlocks_eq]
  split
  · exact ⟨rfl, rfl, rfl⟩
  · split <;> exact ⟨rfl, rfl, rfl⟩

/-- The fold of the buffer, with no case split: an empty remainder changes no lane (44_stream_commands.md R183). -/
theorem foldBuffer_eq (s : State) :
    foldBuffer s = { s with
      lanes := remainder s.avar s.lanes (bufRead s.buf s.count.toNat)
      size := s.size + s.count.setWidth 64
      count := 0#4 } := by
  unfold foldBuffer
  split
  · rfl
  · rename_i h
    have h : s.count = 0#4 := by simpa using h
    obtain ⟨⟩ := s
    simp only at h
    subst h
    simp

/-- FINISH in one update (R183). -/
theorem finishBody_eq (s : State) :
    finishBody s = { s with
      lanes := finalize s.avar (remainder s.avar s.lanes (bufRead s.buf s.count.toNat)) (s.size + s.count.setWidth 64)
      size := s.size + s.count.setWidth 64
      count := 0#4
      phase := .final } := by
  rw [finishBody, foldBuffer_eq]
  rfl

/-- Every effect but GET's leaves the data memory alone (10_state.md R37). -/
theorem effectOf_mem {i : Instr} (h : i ≠ .get) (s : State) : (effectOf i s).mem = s.mem := by
  have hs : (startBody s).mem = s.mem := by unfold startBody; split <;> rfl
  cases i
  · exact hs
  · exact (absorb_keeps _ s).2.2
  · show (finishBody s).mem = s.mem
    rw [finishBody_eq]
  · show (finishBody (putBody (startBody s))).mem = s.mem
    rw [finishBody_eq]
    exact (absorb_keeps _ _).2.2.trans hs
  · rfl
  · rfl
  · rfl
  · rfl
  · exact absurd rfl h

/-- A command raises `E_ILLEGAL_CMD` or `E_BAD_REG` never: those two are the bus's (60_exceptions.md R270). -/
theorem commandCause_ne {i : Instr} {s : State} {c : Cause} (h : commandCause i s = some c) :
    c ≠ .illegalCmd ∧ c ≠ .badReg := by
  have ho := mem_of_firstCause h
  simp only [List.mem_cons, List.not_mem_nil, or_false] at ho
  rcases ho with hc | hc | hc | hc
  · cases i <;> cases hp : s.phase <;> simp_all [phaseCause]
  · cases i <;> simp_all [countCause]
  · cases i <;> simp_all [operandCause]
  · unfold rangeCause at hc
    split at hc <;> simp_all

/-- A command that runs from a state without a fault and faults has done nothing else (60_exceptions.md R272). -/
theorem exec_raised {i : Instr} {s t : State} (hf : s.fault = false) (h : exec i s = .next t) (ht : t.fault = true) :
    ∃ c, commandCause i s = some c ∧ t = faulted (causeCode c) s := by
  rcases exec_cases h with ⟨h1, -⟩ | ⟨-, c, hc, rfl⟩ | ⟨-, -, rfl⟩
  · simp_all
  · exact ⟨c, hc, rfl⟩
  · have := (effectOf_host i s).fault
    simp_all

/-- A command that runs and does not fault has had its effect. -/
theorem exec_ran {i : Instr} {s t : State} (h : exec i s = .next t) (ht : t.fault = false) :
    s.fault = false ∧ commandCause i s = none ∧ t = effectOf i s := by
  rcases exec_cases h with ⟨h1, rfl⟩ | ⟨-, c, -, rfl⟩ | h
  · simp_all
  · simp at ht
  · exact h

end Sys2Proof.Machine
end

