-- ==== Sys2Proof/Laws/Absorbed.lean ====
section
/-! SUPPORT. What a run of PUTs has done: a computation that has absorbed a message has stepped its whole blocks and buffers its tail
(44_stream_commands.md R182, R186, R187). -/

namespace Sys2Proof.Machine

/-- The state of a computation that started from lanes `h` and `SIZE` = `z` and has been given the bytes of `msg`. -/
structure Absorbed (h : Lanes) (z : DWord) (msg : List Byte) (t : State) : Prop where
  phase : t.phase = .absorb
  lanes : t.lanes = blockSteps t.avar (msg.length / blockBytes t.avar) msg h
  size : t.size = z + BitVec.ofNat 64 (msg.length / blockBytes t.avar * blockBytes t.avar)
  count : t.count.toNat = msg.length % blockBytes t.avar
  live : bufRead t.buf t.count.toNat = msg.drop (msg.length / blockBytes t.avar * blockBytes t.avar)

/-- In ABSORB the buffered bytes alone are a message. -/
theorem absorbed_start {s : State} (hp : s.phase = .absorb) (hc : s.count.toNat < blockBytes s.avar) :
    Absorbed s.lanes s.size (bufRead s.buf s.count.toNat) s := by
  have hlen : (bufRead s.buf s.count.toNat).length = s.count.toNat := by
    have := s.count.isLt
    rw [bufRead_length]; omega
  have hd : s.count.toNat / blockBytes s.avar = 0 := Nat.div_eq_of_lt hc
  constructor
  · exact hp
  · rw [hlen, hd, blockSteps_zero]
  · simp [hlen, hd]
  · rw [hlen, Nat.mod_eq_of_lt hc]
  · simp [hlen, hd]

/-- The three fields of a computation that the operands of a command do not touch. -/
theorem Absorbed.congr {h : Lanes} {z : DWord} {msg : List Byte} {t : State} (ht : Absorbed h z msg t) (m : List Host.Cell)
    (a n : Word) : Absorbed h z msg { t with mem := m, addr := a, len := n } :=
  ⟨ht.phase, ht.lanes, ht.size, ht.count, ht.live⟩

/-- Absorbing a chunk appends it. -/
theorem Absorbed.append {h : Lanes} {z : DWord} {msg : List Byte} {t : State} (ht : Absorbed h z msg t)
    (data : List Byte) : Absorbed h z (msg ++ data) (absorb data t) := by
  have hpos := blockBytes_pos t.avar
  have hb := blockBytes_le t.avar
  have hc : t.count.toNat < blockBytes t.avar := ht.count ▸ Nat.mod_lt _ hpos
  obtain ⟨h1, h2⟩ := absorb_spec data t hc
  obtain ⟨hphase, havar, -⟩ := absorb_keeps data t
  have hglen := gathered_length data t
  have hdm := Nat.div_add_mod msg.length (blockBytes t.avar)
  rw [Nat.mul_comm] at hdm
  have hle : msg.length / blockBytes t.avar * blockBytes t.avar ≤ msg.length := by omega
  have hg : gathered data t = (msg ++ data).drop (msg.length / blockBytes t.avar * blockBytes t.avar) := by
    rw [gathered, ht.live, List.drop_append_of_le_length hle]
  have htot : (msg ++ data).length =
      (gathered data t).length + msg.length / blockBytes t.avar * blockBytes t.avar := by
    rw [hglen, ht.count, List.length_append]; omega
  have hq : (msg ++ data).length / blockBytes t.avar =
      msg.length / blockBytes t.avar + (gathered data t).length / blockBytes t.avar := by
    rw [htot, Nat.add_mul_div_right _ _ hpos, Nat.add_comm]
  have hr : (msg ++ data).length % blockBytes t.avar = (gathered data t).length % blockBytes t.avar := by
    rw [htot, Nat.add_mul_mod_self_right]
  have hcount : (absorb data t).count.toNat = (gathered data t).length % blockBytes t.avar := by
    have := Nat.mod_lt (gathered data t).length hpos
    rw [h1]
    simp only [BitVec.toNat_ofNat]
    omega
  constructor
  · rw [hphase, ht.phase]
  · rw [havar, hq, blockSteps_add, blockSteps_append _ _ _ _ _ hle, ← hg, ← ht.lanes, h1]
  · rw [havar, hq, h1, ht.size]
    simp only [Nat.add_mul, BitVec.ofNat_add, BitVec.add_assoc]
  · rw [havar, hcount, hr]
  · rw [havar, hcount, h2, hq, hg, List.drop_drop]
    congr 1
    ring

/-- A PUT that succeeds is an `absorb` of the bytes at `ADDR`, in ABSORB (R182). -/
theorem put_ran {s t : State} (h : exec .put s = .next t) (ht : t.fault = false) :
    s.phase = .absorb ∧ s.fault = false ∧ t = absorb (memRead s.mem s.addr.toNat s.len.toNat) s := by
  obtain ⟨hf, hc, rfl⟩ := exec_ran h ht
  refine ⟨?_, hf, rfl⟩
  have := (commandCause_eq_none.mp hc).1
  cases hp : s.phase <;> simp_all [phaseCause]

/-- A series of PUTs appends its chunks (R186). -/
theorem Feeds.absorbed {s t : State} {chunks : List (List Byte)} (hfeed : Feeds s chunks t) {h : Lanes} {z : DWord}
    {msg : List Byte} (hs : Absorbed h z msg s) (hf : s.fault = false) :
    Absorbed h z (msg ++ chunks.flatten) t ∧ t.avar = s.avar ∧ t.fault = false := by
  induction hfeed generalizing msg with
  | done s => simpa using ⟨hs, hf⟩
  | chunk s s' t m a n rest put clean more ih =>
    obtain ⟨-, -, rfl⟩ := put_ran put clean
    obtain ⟨h1, h2, h3⟩ := ih ((hs.congr m a n).append _) clean
    refine ⟨by simpa using h1, ?_, h3⟩
    rw [h2, (absorb_keeps _ _).2.1]

/-- FINISH on a computation that has absorbed a message (R183). -/
theorem Absorbed.finish {h : Lanes} {z : DWord} {msg : List Byte} {t : State} (ht : Absorbed h z msg t)
    (hf : t.fault = false) :
    exec .finish t = .next (finishBody t)
    ∧ (finishBody t).phase = .final ∧ (finishBody t).avar = t.avar ∧ (finishBody t).count = 0#4
    ∧ (finishBody t).size = z + BitVec.ofNat 64 msg.length
    ∧ (finishBody t).lanes = finalize t.avar
        (remainder t.avar (blockSteps t.avar (msg.length / blockBytes t.avar) msg h)
          (msg.drop (msg.length / blockBytes t.avar * blockBytes t.avar)))
        (z + BitVec.ofNat 64 msg.length) := by
  have hsize : t.size + t.count.setWidth 64 = z + BitVec.ofNat 64 msg.length := by
    have hdm := Nat.div_add_mod msg.length (blockBytes t.avar)
    rw [Nat.mul_comm] at hdm
    have hc : t.count.setWidth 64 = BitVec.ofNat 64 (msg.length % blockBytes t.avar) := by
      rw [← ht.count]
      apply BitVec.eq_of_toNat_eq
      simp
    rw [ht.size, hc, BitVec.add_assoc, ← BitVec.ofNat_add, hdm]
  refine ⟨exec_of_pass hf ?_, ?_, ?_, ?_, ?_, ?_⟩
  · rw [commandCause_eq_none]
    exact ⟨by simp [phaseCause, ht.phase], rfl, rfl, rangeCause_eq_none.mpr (.inl rfl)⟩
  all_goals rw [finishBody_eq]
  · exact hsize
  · simp only [hsize, ht.live, ht.lanes]

end Sys2Proof.Machine
end

