-- ==== Sys2Proof/Laws/Bytes.lean ====
section
/-! SUPPORT. Little-endian packing and unpacking (00_scope.md R11, 20_memory.md R63, R64). -/

namespace Sys2Proof.Machine

@[simp] theorem packLE_nil : packLE [] = 0 := rfl

theorem packLE_cons (b : Byte) (bs : List Byte) : packLE (b :: bs) = b.toNat + 256 * packLE bs := rfl

theorem packLE_lt (bytes : List Byte) : packLE bytes < 256 ^ bytes.length := by
  induction bytes with
  | nil => decide
  | cons b bs ih =>
    have := b.isLt
    rw [packLE_cons, List.length_cons, Nat.pow_succ]
    omega

/-- Packing what was unpacked gives the `n` low bytes of the value. -/
theorem packLE_unpackLE (v n : Nat) : packLE (unpackLE v n) = v % 256 ^ n := by
  induction n generalizing v with
  | zero => simp [unpackLE, Nat.mod_one]
  | succ n ih =>
    have hm := Nat.mod_mul (a := 256) (b := 256 ^ n) (x := v)
    rw [unpackLE, packLE_cons, ih, BitVec.toNat_ofNat, show 256 ^ (n + 1) = 256 * 256 ^ n from pow_succ' _ _, hm]

/-- The low bytes, then those of the rest. -/
theorem unpackLE_add (v m n : Nat) : unpackLE v (m + n) = unpackLE v m ++ unpackLE (v / 256 ^ m) n := by
  induction m generalizing v with
  | zero => simp [unpackLE]
  | succ m ih =>
    have : m + 1 + n = (m + n) + 1 := by omega
    rw [this, unpackLE, ih, unpackLE, Nat.div_div_eq_div_mul, ← Nat.pow_succ']
    rfl

/-- Byte `i` of the packed value is byte `i` of the list. -/
theorem packLE_byte (bytes : List Byte) (i : Nat) : packLE bytes / 256 ^ i % 256 = (bytes.getD i 0#8).toNat := by
  induction bytes generalizing i with
  | nil => simp
  | cons b bs ih =>
    have hb := b.isLt
    cases i with
    | zero => rw [packLE_cons]; simp; omega
    | succ i =>
      rw [packLE_cons, Nat.pow_succ', ← Nat.div_div_eq_div_mul]
      have : (b.toNat + 256 * packLE bs) / 256 = packLE bs := by omega
      rw [this, ih]
      simp

/-- Byte `i` of a value is byte `i` of its unpacking. -/
theorem unpackLE_getD (v n i : Nat) (h : i < n) : (unpackLE v n).getD i 0#8 = BitVec.ofNat 8 (v / 256 ^ i) := by
  induction n generalizing v i with
  | zero => omega
  | succ n ih =>
    cases i with
    | zero => simp [unpackLE]
    | succ i =>
      rw [unpackLE, List.getD_cons_succ, ih _ _ (by omega), Nat.div_div_eq_div_mul, ← Nat.pow_succ']

theorem pow256 (i : Nat) : 256 ^ i = 2 ^ (8 * i) := by
  rw [Nat.pow_mul]

/-- Byte `i` of a word, as bits `[8i+7 : 8i]` (20_memory.md R64). -/
theorem ofNat_packLE_byte (w : Nat) (bytes : List Byte) (i : Nat) (h : 8 * i + 8 ≤ w) :
    (BitVec.ofNat w (packLE bytes)).extractLsb' (8 * i) 8 = bytes.getD i 0#8 := by
  apply BitVec.eq_of_toNat_eq
  rw [BitVec.extractLsb'_toNat, BitVec.toNat_ofNat, ← packLE_byte, pow256, Nat.shiftRight_eq_div_pow]
  have h2 : 2 ^ w = 2 ^ (8 * i) * 2 ^ (w - 8 * i) := by rw [← Nat.pow_add]; congr 1; omega
  have h3 : 2 ^ (w - 8 * i) = 2 ^ 8 * 2 ^ (w - 8 * i - 8) := by rw [← Nat.pow_add]; congr 1; omega
  rw [h2, Nat.mod_mul_right_div_self, h3, Nat.mod_mul_right_mod]
  rfl

theorem word32_lt (v : Word) : packLE (unpackLE v.toNat 4) = v.toNat := by
  rw [packLE_unpackLE]; exact Nat.mod_eq_of_lt v.isLt

/-- A 32-bit word from its own four bytes. -/
@[simp] theorem word32_unpackLE (v : Word) : word32 (unpackLE v.toNat 4) = v := by
  rw [word32, word32_lt, BitVec.ofNat_toNat, BitVec.setWidth_eq]

/-- Unpacking `n` bytes looks at the low `n` bytes only. -/
theorem unpackLE_mod (v m n : Nat) (h : n ≤ m) : unpackLE (v % 256 ^ m) n = unpackLE v n := by
  induction n generalizing v m with
  | zero => rfl
  | succ n ih =>
    obtain ⟨k, rfl⟩ : ∃ k, m = k + 1 := ⟨m - 1, by omega⟩
    rw [unpackLE, unpackLE, Nat.pow_succ', Nat.mod_mul_right_div_self, ih _ _ (by omega)]
    congr 1
    apply BitVec.eq_of_toNat_eq
    rw [BitVec.toNat_ofNat, BitVec.toNat_ofNat]
    exact Nat.mod_mul_right_mod v 256 (256 ^ k)

theorem lo32_toNat (v : DWord) : (lo32 v).toNat = v.toNat % 256 ^ 4 := by
  simp [lo32, BitVec.extractLsb'_toNat]

theorem hi32_toNat (v : DWord) : (hi32 v).toNat = v.toNat / 256 ^ 4 := by
  have := v.isLt
  simp only [hi32, BitVec.extractLsb'_toNat, Nat.shiftRight_eq_div_pow]
  omega

/-- The bytes of a 64-bit value are those of its low half and then those of its high half. -/
theorem unpackLE_halves (v : DWord) :
    unpackLE v.toNat 8 = unpackLE (lo32 v).toNat 4 ++ unpackLE (hi32 v).toNat 4 := by
  rw [lo32_toNat, hi32_toNat, unpackLE_mod _ _ _ (le_refl 4)]
  exact unpackLE_add v.toNat 4 4

/-- `RESULTn` is bytes `4n .. 4n+3` of the result, packed little-endian, and 0 where there are none (10_state.md R33). -/
theorem resultWord_eq (v : Variant) (h : Lanes) (n : Nat) (hn : n < 4) :
    resultWord v h n = word32 (((result v h).drop (4 * n)).take 4) := by
  have hl : ∀ v : Word, (unpackLE v.toNat 4).length = 4 := fun v => unpackLE_length _ _
  have four : ∀ n, n < 4 → n = 0 ∨ n = 1 ∨ n = 2 ∨ n = 3 := by omega
  cases v
  · rcases four n hn with rfl | rfl | rfl | rfl <;>
      simp [resultWord, resultWordX86_32, result, resultX86_32, List.take_of_length_le, List.drop_eq_nil_of_le] <;> rfl
  · rcases four n hn with rfl | rfl | rfl | rfl <;>
      simp [resultWord, resultWordX86_128, result, resultX86_128, List.drop_append, List.take_of_length_le,
        List.drop_eq_nil_of_le]
  · rcases four n hn with rfl | rfl | rfl | rfl <;>
      simp [resultWord, resultWordX64_128, result, resultX64_128, unpackLE_halves, List.drop_append,
        List.take_of_length_le, List.drop_eq_nil_of_le]

end Sys2Proof.Machine
end

