-- ==== Sys2Proof/Laws/Invariant.lean ====
section
/-! SUPPORT. The shared operations keep the invariant of Safety.lean. -/

namespace Sys2Proof.Machine

theorem State.Inv.raise {s : State} (h : s.Inv) (c : Cause) : (raise c s).Inv := by
  unfold Machine.raise
  split
  · exact h
  · exact ⟨h.1, h.2, h.3, h.4, h.5, by simpa using causeCode_range c, h.7⟩

theorem State.Inv.reply {s : State} (h : s.Inv) (r : Reply) : (reply r s).Inv := ⟨h.1, h.2, h.3, h.4, h.5, h.6, h.7⟩

theorem State.Inv.startWith {s : State} (h : s.Inv) (v : Variant) : (startWith v s).Inv :=
  ⟨h.1, h.2, by simp [blockBytes_pos], fun _ => rfl, seedLanes_lanesLegal v s, h.6, by simp⟩

/-- PUT keeps `COUNT < B` (10_state.md R31). -/
theorem State.Inv.absorb {s : State} (h : s.Inv) (hp : s.phase = .absorb) (data : List Byte) : (absorb data s).Inv := by
  have hm := Nat.mod_lt (gathered data s).length (blockBytes_pos s.avar)
  have := blockBytes_le s.avar
  rw [(absorb_spec data s h.3).1]
  refine ⟨h.1, h.2, ?_, by simp [hp], blockSteps_lanesLegal h.5 _ _, h.6, by simp [hp]⟩
  simp only [BitVec.toNat_ofNat]
  omega

theorem State.Inv.finishBody {s : State} (h : s.Inv) : (finishBody s).Inv := by
  rw [finishBody_eq]
  exact ⟨h.1, h.2, by simp [blockBytes_pos], fun _ => rfl, finalize_lanesLegal (remainder_lanesLegal h.5 _) _, h.6, by simp⟩

end Sys2Proof.Machine
end

