-- ==== Sys2Proof/Laws/Mixing.lean ====
section
/-! SUPPORT. What the steps of the mixers lose: a shift exclusive-or and a product with an odd constant lose nothing, a product
with an even constant does (40_mixing.md R102, R104, R105). -/

namespace Sys2Proof.Machine

/-- "xor>>s" is injective for s > 0: the bits are recovered from the top. -/
theorem xorShift_injective {w s : Nat} (hs : 0 < s) : Function.Injective (fun h : BitVec w => xorShift h s) := by
  intro x y h
  simp only [xorShift] at h
  have key : ∀ n i, w - i ≤ n → x.getLsbD i = y.getLsbD i := by
    intro n
    induction n with
    | zero => intro i hi; rw [BitVec.getLsbD_of_ge _ _ (by omega), BitVec.getLsbD_of_ge _ _ (by omega)]
    | succ n ih =>
      intro i hi
      by_cases hiw : i < w
      · have := congrArg (fun z => z.getLsbD i) h
        simp only [BitVec.getLsbD_xor, BitVec.getLsbD_ushiftRight] at this
        rw [ih (s + i) (by omega)] at this
        exact Bool.xor_left_inj.mp this
      · rw [BitVec.getLsbD_of_ge _ _ (by omega), BitVec.getLsbD_of_ge _ _ (by omega)]
  exact BitVec.eq_of_getLsbD_eq fun i _ => key w i (by omega)

/-- A product with a constant that has an inverse is injective. -/
theorem mul_injective {w : Nat} {c d : BitVec w} (h : d * c = 1#w) : Function.Injective (fun x : BitVec w => c * x) := by
  intro x y hxy
  have := congrArg (fun z => d * z) hxy
  simpa only [← BitVec.mul_assoc, h, BitVec.one_mul] using this

/-- A product with an odd constant is injective. -/
theorem mul_injective_of_odd {w : Nat} {c : BitVec w} (h : c.getLsbD 0 = true) :
    Function.Injective (fun x : BitVec w => c * x) := by
  have odd : c.toNat % 2 = 1 := by simpa [BitVec.getLsbD, Nat.testBit_zero] using h
  have coprime : (2 ^ w).gcd c.toNat = 1 := Nat.Coprime.pow_left _ (Nat.coprime_two_left.mpr (Nat.odd_iff.mpr odd))
  intro x y hxy
  have e := Nat.ModEq.cancel_left_of_coprime coprime (by simpa [Nat.ModEq] using congrArg BitVec.toNat hxy)
  rw [Nat.ModEq, Nat.mod_eq_of_lt x.isLt, Nat.mod_eq_of_lt y.isLt] at e
  exact BitVec.eq_of_toNat_eq e

/-- A product with an even constant is not: it sends the top bit alone to 0. -/
theorem mul_not_injective_of_even {w : Nat} (hw : 0 < w) {c : BitVec w} (h : c.getLsbD 0 = false) :
    ¬ Function.Injective (fun x : BitVec w => c * x) := by
  intro inj
  have even : c.toNat % 2 = 0 := by simpa [BitVec.getLsbD, Nat.testBit_zero] using h
  obtain ⟨d, hd⟩ : ∃ d, c.toNat = 2 * d := ⟨c.toNat / 2, by omega⟩
  have lt : 2 ^ (w - 1) < 2 ^ w := Nat.pow_lt_pow_right (by omega) (by omega)
  have top : 2 * 2 ^ (w - 1) = 2 ^ w := by rw [← pow_succ']; congr 1; omega
  have e : c * BitVec.ofNat w (2 ^ (w - 1)) = c * 0#w := by
    apply BitVec.eq_of_toNat_eq
    rw [BitVec.toNat_mul, BitVec.toNat_ofNat, Nat.mod_eq_of_lt lt, hd, Nat.mul_comm 2 d, Nat.mul_assoc, top]
    simp
  have z := congrArg BitVec.toNat (inj e)
  rw [BitVec.toNat_ofNat, Nat.mod_eq_of_lt lt] at z
  simp at z

end Sys2Proof.Machine
end

