-- ==== Sys2Proof/Laws/PerInstr.lean ====
section
/-! SUPPORT. Facts about each command as syntax, one lemma per constructor. -/

namespace Sys2Proof.Laws.CommandWord

/-- The CMD word of a command holds its OPCODE in bits [7:0] and 0 in the reserved bits [31:8] (30_encoding.md R82, R84). -/
def Statement (i : Instr) : Prop := opcodeField (encode i) = opcodeOf i ∧ reservedField (encode i) = 0#24

theorem start : Statement .start := by unfold Statement; decide

theorem put : Statement .put := by unfold Statement; decide

theorem finish : Statement .finish := by unfold Statement; decide

theorem hash : Statement .hash := by unfold Statement; decide

theorem blkPut : Statement .blkPut := by unfold Statement; decide

theorem blkPutn : Statement .blkPutn := by unfold Statement; decide

theorem blkRem : Statement .blkRem := by unfold Statement; decide

theorem blkFin : Statement .blkFin := by unfold Statement; decide

theorem get : Statement .get := by unfold Statement; decide

end Sys2Proof.Laws.CommandWord
end

