-- ==== Sys2Proof/Laws/Step.lean ====
section
/-! SUPPORT. What one step can do: the host's actions, and the register bus behind its admission (46_register_access.md R240 to
R250). -/

namespace Sys2Proof.Machine

/-- With no host action waiting the state is held (60_exceptions.md R286). -/
theorem step_idle {s : State} (h : s.pending = []) : step s = .next s := by simp [step, h]

theorem step_action {s : State} {a : HostAction} {rest : List HostAction} (h : s.pending = a :: rest) :
    step s = hostAction a { s with pending := rest } := by simp [step, h]

theorem step_access {s : State} {b : BusAccess} {rest : List HostAction} (h : s.pending = .access b :: rest) :
    step s = busAccess b { s with pending := rest } := step_action h

/-- The seventeen registers stand at their offsets. -/
@[simp] theorem registerAt_offsetOf (r : Reg) : registerAt (offsetOf r) = some r := by cases r <;> decide

theorem offsetOf_of_registerAt {o : BitVec 8} {r : Reg} (h : registerAt o = some r) : o = offsetOf r := by
  have h := List.find?_some (p := fun r => decide (offsetOf r = o)) h
  simpa using (of_decide_eq_true h).symm

/-- Every register's offset is a multiple of 4 (10_state.md section 2). -/
theorem offsetOf_aligned (r : Reg) : (offsetOf r).toNat % 4 = 0 := by cases r <;> decide

/-- A 4-byte access at a register's offset is admitted (R240). -/
@[simp] theorem admittedRegister_offsetOf (k : AccessKind) (r : Reg) (d : Word) :
    admittedRegister ⟨k, offsetOf r, 4, d⟩ = some r := by
  simp [admittedRegister, BusAccess.widthOk, BusAccess.aligned, offsetOf_aligned]

/-- What admission lets through: width 4, aligned, and the register that stands at the offset (R240). -/
theorem admittedRegister_eq_some {b : BusAccess} {r : Reg} (h : admittedRegister b = some r) :
    b.width = 4 ∧ b.offset = offsetOf r := by
  unfold admittedRegister at h
  split at h
  · rename_i hw
    simp only [Bool.and_eq_true, BusAccess.widthOk, beq_iff_eq] at hw
    exact ⟨hw.1, offsetOf_of_registerAt h⟩
  · simp at h

/-- What admission turns away (R240, R245). -/
theorem admittedRegister_eq_none {b : BusAccess}
    (h : b.width ≠ 4 ∨ b.offset.toNat % 4 ≠ 0 ∨ ∀ r, b.offset ≠ offsetOf r) : admittedRegister b = none := by
  cases hr : admittedRegister b with
  | none => rfl
  | some r =>
    obtain ⟨hw, ho⟩ := admittedRegister_eq_some hr
    rcases h with h | h | h
    · exact absurd hw h
    · exact absurd (ho ▸ offsetOf_aligned r) h
    · exact absurd ho (h r)

/-- While faulted a write of any kind is ignored (R241). -/
theorem busAccess_write_faulted {b : BusAccess} {s : State} (hk : b.kind = .wr) (h : s.fault = true) :
    busAccess b s = .next s := by simp [busAccess, hk, h]

/-- An access turned away at admission. -/
theorem busAccess_bad {b : BusAccess} {s : State} (h : s.fault = false ∨ b.kind = .rd) (hr : admittedRegister b = none) :
    busAccess b s = .next (badAccess b.kind s) := by
  have : ¬(b.kind = .wr ∧ s.fault = true) := by rcases h with h | h <;> simp [h]
  simp [busAccess, this, hr]

/-- A read of a register (R247 to R249). -/
@[simp] theorem busAccess_read (r : Reg) (d : Word) (s : State) :
    busAccess ⟨.rd, offsetOf r, 4, d⟩ s = .next (readRegister r s) := by
  simp [busAccess, admittedAccess]

/-- A write of a register other than `CMD` (R242 to R246). -/
theorem busAccess_write {r : Reg} {d : Word} {s : State} (h : s.fault = false) (hr : r ≠ .cmd) :
    busAccess ⟨.wr, offsetOf r, 4, d⟩ s = .next (writeRegister r d s) := by
  cases r <;> simp_all [busAccess, admittedAccess]

/-- A write of `CMD` runs the command (R250). -/
theorem busAccess_cmd {d : Word} {s : State} (h : s.fault = false) :
    busAccess ⟨.wr, offsetOf .cmd, 4, d⟩ s = writeCmd d s := by
  simp [busAccess, h, admittedAccess]

/-- Everything a register access can do. -/
theorem busAccess_cases {b : BusAccess} {s t : State} (h : busAccess b s = .next t) :
    (b.kind = .wr ∧ s.fault = true ∧ t = s)
    ∨ (admittedRegister b = none ∧ (s.fault = false ∨ b.kind = .rd) ∧ t = badAccess b.kind s)
    ∨ (∃ r d, b = ⟨.rd, offsetOf r, 4, d⟩ ∧ t = readRegister r s)
    ∨ (∃ r d, b = ⟨.wr, offsetOf r, 4, d⟩ ∧ s.fault = false ∧ r ≠ .cmd ∧ t = writeRegister r d s)
    ∨ (∃ d i, b = ⟨.wr, offsetOf .cmd, 4, d⟩ ∧ s.fault = false ∧ decode d = .ok i ∧ exec i s = .next t)
    ∨ (∃ d e, b = ⟨.wr, offsetOf .cmd, 4, d⟩ ∧ s.fault = false ∧ decode d = .error e ∧ t = raise .illegalCmd s) := by
  by_cases hf : b.kind = .wr ∧ s.fault = true
  · rw [busAccess_write_faulted hf.1 hf.2] at h
    exact .inl ⟨hf.1, hf.2, by simpa using h.symm⟩
  have hf' : s.fault = false ∨ b.kind = .rd := by
    cases hb : b.kind <;> simp_all
  refine .inr ?_
  cases hr : admittedRegister b with
  | none =>
    rw [busAccess_bad hf' hr] at h
    exact .inl ⟨rfl, hf', by simpa using h.symm⟩
  | some r =>
    refine .inr ?_
    obtain ⟨hw, ho⟩ := admittedRegister_eq_some hr
    obtain ⟨k, o, w, d⟩ := b
    subst hw ho
    cases k with
    | rd =>
      rw [busAccess_read] at h
      exact .inl ⟨r, d, rfl, by simpa using h.symm⟩
    | wr =>
      have hs : s.fault = false := by simpa using hf'
      refine .inr ?_
      by_cases hc : r = .cmd
      · subst hc
        rw [busAccess_cmd hs, writeCmd] at h
        refine .inr ?_
        cases hd : decode d with
        | ok i =>
          rw [hd] at h
          exact .inl ⟨d, i, rfl, hs, hd, h⟩
        | error e =>
          rw [hd] at h
          exact .inr ⟨d, e, rfl, hs, hd, by simpa using h.symm⟩
      · rw [busAccess_write hs hc] at h
        exact .inl ⟨r, d, rfl, hs, hc, by simpa using h.symm⟩

/-- Every register access answers a next state (R251). -/
theorem busAccess_next (b : BusAccess) (s : State) : ∃ t, busAccess b s = .next t := by
  unfold busAccess
  split
  · exact ⟨_, rfl⟩
  · split
    · rename_i r _
      unfold admittedAccess
      split
      · exact ⟨_, rfl⟩
      · unfold writeCmd
        split
        · exact exec_next _ _
        · exact ⟨_, rfl⟩
      · exact ⟨_, rfl⟩
    · exact ⟨_, rfl⟩

/-- Everything a step that answers a next state can do. -/
theorem step_cases {s t : State} (h : step s = .next t) :
    (s.pending = [] ∧ t = s)
    ∨ (∃ b rest, s.pending = .access b :: rest ∧ busAccess b { s with pending := rest } = .next t)
    ∨ (∃ a v rest, s.pending = .memWrite a v :: rest ∧ a.toNat < memSize s
        ∧ t = { s with pending := rest, mem := storeByte s.mem a.toNat v })
    ∨ (∃ a rest, s.pending = .memRead a :: rest ∧ a.toNat < memSize s
        ∧ t = reply (.byte (loadByte s.mem a.toNat)) { s with pending := rest })
    ∨ (∃ rest, s.pending = .rst :: rest ∧ t = applyReset { s with pending := rest }) := by
  rcases hp : s.pending with _ | ⟨a, rest⟩
  · rw [step_idle hp] at h
    exact .inl ⟨rfl, by simpa using h.symm⟩
  · rw [step_action hp] at h
    refine .inr ?_
    cases a with
    | access b => exact .inl ⟨b, rest, rfl, h⟩
    | memWrite a v =>
      simp only [hostAction, hostWrite] at h
      split at h
      · exact .inr (.inl ⟨a, v, rest, rfl, by assumption, by simpa using h.symm⟩)
      · simp at h
    | memRead a =>
      simp only [hostAction, hostRead] at h
      split at h
      · exact .inr (.inr (.inl ⟨a, rest, rfl, by assumption, by simpa using h.symm⟩))
      · simp at h
    | rst => exact .inr (.inr (.inr ⟨rest, rfl, by simpa [hostAction] using h.symm⟩))

end Sys2Proof.Machine
end

