-- ==== Sys2Proof/Tests/Slice0.lean ====
section
/-! SUPPORT. The model's own tests: ill-formed accesses refused, every command's word, one-step results from the vectors of
95_test_vectors.md, and for every statement with hypotheses a witness that meets them. -/

namespace Sys2Proof.Tests

open Sys2Proof.Machine

/-! ## Helpers -/

/-- `range(n)` of 95_test_vectors.md: the bytes 0 .. n-1. -/
def range (n : Nat) : List Byte := (List.range n).map (BitVec.ofNat 8)

/-- Reset with `MEM_SIZE` = 256 and `range(48)` at address 0 (the start state of 95_test_vectors.md section 3.5, shortened). -/
def base : State := { State.reset with memLast := 255#32, mem := memWrite [] 0 (range 48) }

/-- A started state: phase, variant, `COUNT`, `ADDR` and `LEN`. -/
def st (p : Phase) (v : Variant) (c : BitVec 4) (a n : Word) : State :=
  { base with phase := p, avar := v, count := c, addr := a, len := n }

/-- A state whose next host action is a register access. -/
def bus (k : AccessKind) (o : BitVec 8) (w : Nat) (d : Word) (s : State) : State :=
  { s with pending := [.access ⟨k, o, w, d⟩] }

/-- What an outcome shows of its next state. -/
def seen {α : Type} (f : State → α) (o : Host.Outcome State Fault Refusal) : Option α :=
  match o with
  | .next t => some (f t)
  | .fault _ => none
  | .refused _ => none

/-- The four lanes. -/
def lanes (a b c d : DWord) : Lanes := ⟨a, b, c, d⟩

/-! ## Ill-formed accesses are refused (46_register_access.md R240, R245; vectors V-R2 to V-R5) -/

theorem test_wellformed_width_refused : (⟨.rd, 0x04#8, 2, 0#32⟩ : BusAccess).widthOk = false := by decide

theorem test_wellformed_alignment_refused : (⟨.rd, 0x02#8, 4, 0#32⟩ : BusAccess).aligned = false := by decide

theorem test_wellformed_unmapped_refused : (⟨.wr, 0x3C#8, 4, 5#32⟩ : BusAccess).mapped = false := by decide

theorem test_wellformed_action_refused : HostAction.wellFormed (.access ⟨.rd, 0x1C#8, 4, 0#32⟩) = false := by decide

theorem test_wellformed_accepts : HostAction.wellFormed (.access ⟨.wr, 0x10#8, 4, 1#32⟩) = true := by decide

theorem test_bad_accesses_status : ∀ x ∈ [(AccessKind.rd, 0x1C#8, 4), (.rd, 0x02#8, 4), (.rd, 0x04#8, 2), (.wr, 0x3C#8, 4)],
    seen statusWord (step (bus x.1 x.2.1 x.2.2 5#32 base)) = some 0x00000C10#32 := by decide

/-! ## Words written out from the opcode map (30_encoding.md R82, R84): bits [31:8], then OPCODE -/

theorem test_decode_start : decode 0b000000000000000000000000_00000001#32 = .ok .start := by rfl

theorem test_decode_put : decode 0b000000000000000000000000_00000010#32 = .ok .put := by rfl

theorem test_decode_finish : decode 0b000000000000000000000000_00000011#32 = .ok .finish := by rfl

theorem test_decode_hash : decode 0b000000000000000000000000_00000100#32 = .ok .hash := by rfl

theorem test_decode_blkPut : decode 0b000000000000000000000000_00010000#32 = .ok .blkPut := by rfl

theorem test_decode_blkPutn : decode 0b000000000000000000000000_00010001#32 = .ok .blkPutn := by rfl

theorem test_decode_blkRem : decode 0b000000000000000000000000_00010010#32 = .ok .blkRem := by rfl

theorem test_decode_blkFin : decode 0b000000000000000000000000_00010011#32 = .ok .blkFin := by rfl

theorem test_decode_get : decode 0b000000000000000000000000_00100000#32 = .ok .get := by rfl

/-- V-R7.0, V-R7.101, V-R7.5: illegal words raise `E_ILLEGAL_CMD`. -/
theorem test_illegal_words :
    seen statusWord (step (bus .wr 0x10#8 4 0x0#32 base)) = some 0x00000910#32
    ∧ seen statusWord (step (bus .wr 0x10#8 4 0x101#32 base)) = some 0x00000910#32
    ∧ seen statusWord (step (bus .wr 0x10#8 4 0x5#32 base)) = some 0x00000910#32 := ⟨rfl, rfl, rfl⟩

/-- The opcode map has no two rows of one opcode. -/
theorem test_opcode_map_rows_apart : opcodeMap.Pairwise (fun x y => x.opcode ≠ y.opcode) := by decide

/-- `withFetchWord` places START so that the next step runs it (V-S8: `SEED1_LO` = 0x2A). -/
theorem test_withFetchWord_start :
    seen (fun t => (t.lanes.h1, t.size, statusWord t)) (step (({ base with seed1Lo := 0x2A#32 } : State).withFetchWord 32 1)) =
      some (0x2A#64, 0#64, 0x00000001#32) := by rfl

/-! ## One step of each command (95_test_vectors.md sections 3.1, 3.5, 3.6) -/

/-- 10_state.md R23: the seeds of `x64_128`, high half above low half. -/
theorem test_start_x64 :
    seen (fun t => (t.lanes, t.avar))
      (exec .start { base with ctrl := 2#2, seed1Lo := 1#32, seed1Hi := 2#32, seed2Lo := 3#32, seed2Hi := 4#32 }) =
      some (lanes 0x0000000200000001#64 0x0000000400000003#64 0#64 0#64, .x64_128) := by decide

/-- V-S2, second PUT: the buffer completes a block. -/
theorem test_put_completes_block :
    seen (fun t => (t.count, t.size, t.lanes.h1))
      (exec .put { st .absorb .x86_32 3#4 3#32 1#32 with buf := bufWrite base.buf 0 [0#8, 1#8, 2#8] }) =
      some (0#4, 4#64, 0x5A7C19DF#64) := by decide

/-- V-S4: two whole blocks from memory, five bytes left. -/
theorem test_put_two_blocks_and_tail :
    seen (fun t => (t.count, t.size, bufRead t.buf 5, t.lanes)) (exec .put (st .absorb .x86_128 0#4 0#32 37#32)) =
      some (5#4, 32#64, [0x20#8, 0x21#8, 0x22#8, 0x23#8, 0x24#8],
        lanes 0xF5EA76D8#64 0x9356B9FF#64 0xB0201E81#64 0x2523BC38#64) := by decide

/-- V-S5: FINISH folds the five bytes and finalizes over `SIZE` = 37. -/
theorem test_finish_folds_tail :
    seen (fun t => (statusWord t, t.size, t.lanes))
      (exec .finish { st .absorb .x86_128 5#4 0#32 0#32 with
        size := 32#64
        buf := bufWrite base.buf 0 [0x20#8, 0x21#8, 0x22#8, 0x23#8, 0x24#8]
        lanes := lanes 0xF5EA76D8#64 0x9356B9FF#64 0xB0201E81#64 0x2523BC38#64 }) =
      some (0x00000007#32, 0x25#64, lanes 0x217F288E#64 0xCC2DCABE#64 0xBD9AF5C3#64 0xA2DD66C0#64) := by decide

/-- V-T1: HASH of `range(7)`, `x86_32`, seed 0. -/
theorem test_hash_x86_32 :
    seen (fun t => result t.avar t.lanes) (exec .hash { base with len := 7#32 }) =
      some [0x14#8, 0x49#8, 0x7E#8, 0x8D#8] := by decide

/-- V-T3: HASH of `range(21)`, `x64_128`, seed 0. -/
theorem test_hash_x64_128 :
    seen (fun t => (t.lanes.h1, t.lanes.h2)) (exec .hash { base with ctrl := 2#2, len := 21#32 }) =
      some (0xCDD13DA028D41203#64, 0x6BC50EFC2DA2E7CB#64) := by decide

/-- V-B1: one block, `SIZE` not counted. -/
theorem test_blkPut_leaves_size :
    seen (fun t => (t.size, t.lanes.h1)) (exec .blkPut (st .absorb .x86_32 0#4 0#32 0#32)) =
      some (0#64, 0x5A7C19DF#64) := by decide

/-- V-S4 and V-B5: two blocks of `x86_128` by one BLK_PUTN. -/
theorem test_blkPutn_two_blocks :
    seen (fun t => (t.size, t.lanes)) (exec .blkPutn (st .absorb .x86_128 0#4 0#32 2#32)) =
      some (32#64, lanes 0xF5EA76D8#64 0x9356B9FF#64 0xB0201E81#64 0x2523BC38#64) := by decide

/-- V-B6: `LEN` = 0 is legal and changes nothing. -/
theorem test_blkPutn_zero :
    seen (fun t => (statusWord t, t.size)) (exec .blkPutn (st .absorb .x86_128 0#4 0#32 0#32)) =
      some (0x00000005#32, 0#64) := by decide

/-- V-B2: the remainder of three bytes. -/
theorem test_blkRem_three_bytes :
    seen (fun t => (statusWord t, t.size, t.lanes.h1))
      (exec .blkRem { st .absorb .x86_32 0#4 4#32 3#32 with size := 4#64, lanes := lanes 0x5A7C19DF#64 0#64 0#64 0#64 }) =
      some (0x00000002#32, 7#64, 0x1440A63F#64) := by decide

/-- V-F11: a remainder of a whole block raises `E_REM_TOO_LONG`. -/
theorem test_blkRem_too_long :
    seen statusWord (exec .blkRem (st .absorb .x86_128 0#4 0#32 16#32)) = some 0x00000115#32 := by decide

/-- V-B10: `x86_32` uses `SIZE[31:0]` only. -/
theorem test_blkFin_x86_32_size :
    seen (fun t => t.lanes.h1) (exec .blkFin { st .absorb .x86_32 0#4 0#32 0#32 with size := 0x100000000#64 }) =
      some 0#64 := by decide

/-- V-B11: `x64_128` uses all 64 bits of `SIZE`. -/
theorem test_blkFin_x64_128_size :
    seen (fun t => (t.lanes.h1, t.lanes.h2))
      (exec .blkFin { st .absorb .x64_128 0#4 0#32 0#32 with size := 0x100000000#64 }) =
      some (0x62ABD11CCF40B33A#64, 0x59D6A9E0807020B1#64) := by decide

/-- V-B3: GET writes result byte 0 at `ADDR`. -/
theorem test_get_writes_result :
    seen (fun t => memRead t.mem 0x7F 6)
      (exec .get { st .final .x86_32 0#4 0x80#32 0#32 with lanes := lanes 0x8D7E4914#64 0#64 0#64 0#64 }) =
      some [0x00#8, 0x14#8, 0x49#8, 0x7E#8, 0x8D#8, 0x00#8] := by decide

/-- V-F15: GET outside FINAL raises `E_RESULT_NOT_READY`. -/
theorem test_get_not_ready :
    seen statusWord (exec .get (st .absorb .x86_32 0#4 0#32 0#32)) = some 0x00000811#32 := by decide

/-! ## Register accesses and the host's side -/

/-- V-R6: `CTRL` keeps bits [1:0]. -/
theorem test_write_ctrl : seen State.ctrl (step (bus .wr 0x00#8 4 0xFFFFFFFF#32 base)) = some 3#2 := by decide

/-- V-R12: `STATUS` and `RESULT0` ignore writes. -/
theorem test_read_only : ∀ o ∈ [0x04#8, 0x40#8], seen statusWord (step (bus .wr o 4 0xFFFFFFFF#32 base)) = some 0#32 := by decide

/-- V-R8: `RESULT0` before FINAL returns 0 and raises. -/
theorem test_read_result_early :
    seen (fun t => (t.replies, statusWord t)) (step (bus .rd 0x40#8 4 0#32 base)) = some ([.word 0#32], 0x00000810#32) := by decide

/-- V-B12: the high half of `SIZE` is written without touching the low half. -/
theorem test_write_size_hi :
    seen State.size (step (bus .wr 0x18#8 4 1#32 { st .absorb .x86_32 0#4 0#32 0#32 with size := 0xFFFFFFFF#64 })) =
      some 0x1FFFFFFFF#64 := by decide

/-- A host access at `MEM_SIZE` stops the model; one below it does not (log 6). -/
theorem test_absent_address :
    step { base with pending := [.memRead 256#32] } = .fault .hostAddressAbsent
    ∧ seen State.replies (step { base with pending := [.memRead 47#32] }) = some [.byte 47#8] := by
  constructor
  · rfl
  · decide

/-- Writing the blank byte removes the entry: the canonical form. -/
theorem test_memory_canonical : storeByte (storeByte [] 5 7#8) 5 0#8 = [] := by decide

/-- The V-T2 result through the whole-message function (42_x86_128.md R146). -/
theorem test_message_x86_128 :
    messageHash .x86_128 (lanes 0#64 0#64 0#64 0#64) (range 21) =
      [0x5E#8, 0xC0#8, 0x62#8, 0x08#8, 0xAD#8, 0xE4#8, 0x4E#8, 0x52#8, 0x7B#8, 0xD9#8, 0x52#8, 0xE3#8, 0xC0#8, 0xA3#8,
        0xCB#8, 0xF7#8] := by decide

/-! ## Witnesses: for every statement with hypotheses, states and operands that meet them, clause by clause -/

/-- A faulted state, in FINAL. -/
def bad : State := { st .final .x64_128 0#4 0#32 0#32 with fault := true, cause := 7#4 }

/-- A memory of 256 bytes filled at its end as at its start. -/
def echo : State := { base with mem := memWrite base.mem 216 (range 40), addr := 0#32, len := 40#32 }

theorem witness_ResetKeepsMemoryAndAloneEndsAFault :
    (∃ (s : State) (rest : List HostAction), s.pending = .rst :: rest)
    ∧ ∃ s t : State, s.pending.head? ≠ some .rst ∧ s.fault = true ∧ step s = .next t :=
  ⟨⟨{ bad with pending := [.rst] }, [], rfl⟩, ⟨bus .wr 0x10#8 4 1#32 bad, _, by decide, rfl, rfl⟩⟩

theorem witness_RegistersReadZeroAfterReset :
    (∃ (s : State) (r : Reg), s.pending = [.rst, .access ⟨.rd, offsetOf r, 4, 0#32⟩] ∧ s.fault = true
      ∧ r ∉ [Reg.result0, .result1, .result2, .result3])
    ∧ ∃ (s : State) (r : Reg), s.pending = [.rst, .access ⟨.rd, offsetOf r, 4, 0#32⟩] ∧ s.fault = true
      ∧ r ∈ [Reg.result0, .result1, .result2, .result3] :=
  ⟨⟨{ bad with pending := [.rst, .access ⟨.rd, offsetOf .seed4, 4, 0#32⟩] }, .seed4, rfl, rfl, by decide⟩,
    ⟨{ bad with pending := [.rst, .access ⟨.rd, offsetOf .result3, 4, 0#32⟩] }, .result3, rfl, rfl, by decide⟩⟩

theorem witness_FaultedMachineIgnoresWritesAndAnswersReads :
    (∃ (s : State) (b : BusAccess), s.pending = [.access b] ∧ s.fault = true ∧ b.kind = .wr)
    ∧ (∃ (s : State) (b : BusAccess), s.pending = [.access b] ∧ s.fault = true ∧ b.kind = .rd ∧ b.width ≠ 4)
    ∧ (∃ (s : State) (b : BusAccess), s.pending = [.access b] ∧ s.fault = true ∧ b.kind = .rd ∧ b.offset.toNat % 4 ≠ 0)
    ∧ (∃ (s : State) (b : BusAccess), s.pending = [.access b] ∧ s.fault = true ∧ b.kind = .rd ∧ ∀ r, b.offset ≠ offsetOf r)
    ∧ (∃ (s : State) (b : BusAccess), s.pending = [.access b] ∧ s.fault = true ∧ b.kind = .rd ∧ b.width = 4
        ∧ b.offset = offsetOf .result3)
    ∧ ∃ s t : State, s.pending.head? ≠ some .rst ∧ s.fault = true ∧ step s = .next t :=
  ⟨⟨bus .wr 0x10#8 4 1#32 bad, _, rfl, rfl, rfl⟩, ⟨bus .rd 0x4C#8 2 0#32 bad, _, rfl, rfl, rfl, by decide⟩,
    ⟨bus .rd 0x4E#8 4 0#32 bad, _, rfl, rfl, rfl, by decide⟩,
    ⟨bus .rd 0x50#8 4 0#32 bad, _, rfl, rfl, rfl, fun r => by cases r <;> decide⟩,
    ⟨bus .rd 0x4C#8 4 0#32 bad, _, rfl, rfl, rfl, rfl, rfl⟩, ⟨{ bad with pending := [.memWrite 255#32 1#8] }, _, by decide, rfl, rfl⟩⟩

theorem witness_RaiseLatchesTheFirstCauseOnly : base.fault = false ∧ bad.fault = true := by decide

theorem witness_RaisingAccessMakesNoOtherEffect :
    ∃ (s t : State) (b : BusAccess), s.pending = [.access b] ∧ s.fault = false ∧ step s = .next t ∧ t.fault = true :=
  ⟨bus .rd 0x40#8 4 0#32 base, _, _, rfl, rfl, rfl, by decide⟩

theorem witness_DecodeAcceptsExactlyTheNineWords :
    (0x00000100#32).extractLsb' 8 24 ≠ 0#24
    ∧ (0x00000014#32).extractLsb' 8 24 = 0#24
    ∧ (0x00000014#32).extractLsb' 0 8 ∉ [0x01#8, 0x02#8, 0x03#8, 0x04#8, 0x10#8, 0x11#8, 0x12#8, 0x13#8, 0x20#8] := by
  decide

theorem witness_EncodersAndDecodersAgree : Instr.get.wellFormed = true ∧ registerAt 0x4C#8 = some .result3 := by decide

theorem witness_StepRunsTheDecodedCommand :
    (∃ (s : State) (w : Word) (i : Instr), s.pending = [.access ⟨.wr, 0x10#8, 4, w⟩] ∧ s.fault = false ∧ decode w = .ok i)
    ∧ (∃ (s : State) (w : Word) (e : IllegalWord),
        s.pending = [.access ⟨.wr, 0x10#8, 4, w⟩] ∧ s.fault = false ∧ decode w = .error e)
    ∧ ∃ (s t : State) (w : Word) (i : Instr), s.pending = [.access ⟨.wr, 0x10#8, 4, w⟩] ∧ s.fault = false
        ∧ decode w = .ok i ∧ step s = .next t ∧ t.fault = true :=
  ⟨⟨bus .wr 0x10#8 4 0x20#32 base, _, .get, rfl, rfl, rfl⟩, ⟨bus .wr 0x10#8 4 0x21#32 base, _, .unassignedOpcode, rfl, rfl, rfl⟩,
    ⟨bus .wr 0x10#8 4 0x20#32 base, _, _, .get, rfl, rfl, rfl, rfl, by decide⟩⟩

theorem witness_PlacedCommandWordRunsNext : base.fault = false ∧ decode 0x01#32 = .ok .start := ⟨rfl, rfl⟩

theorem witness_StepStopsOnlyAtAbsentAddresses : base.pending = [] := rfl

theorem witness_WriteCtrlKeepsTwoBits :
    (∃ (s : State) (rest rest' : List HostAction), s.pending = .access ⟨.wr, 0x00#8, 4, 0xFFFFFFFF#32⟩ :: rest
      ∧ s.fault = false ∧ rest = .access ⟨.rd, 0x00#8, 4, 0#32⟩ :: rest')
    ∧ ∃ s u : State, s.pending = [.access ⟨.wr, 0x00#8, 4, 0xFFFFFFFF#32⟩] ∧ s.fault = false ∧ Instr.put ≠ .start
      ∧ Instr.put ≠ .hash ∧ exec .put { s with pending := [] } = .next u ∧ u.fault = false :=
  ⟨⟨{ base with pending := [.access ⟨.wr, 0x00#8, 4, 0xFFFFFFFF#32⟩, .access ⟨.rd, 0x00#8, 4, 0#32⟩] }, _, _, rfl, rfl, rfl⟩,
    ⟨bus .wr 0x00#8 4 0xFFFFFFFF#32 (st .absorb .x86_32 3#4 0#32 5#32), _, rfl, rfl, by decide, by decide, rfl, by decide⟩⟩

theorem witness_WriteOperandAndSeedRegisters :
    (∀ o ∈ [0x08#8, 0x0C#8, 0x20#8, 0x24#8, 0x28#8, 0x2C#8, 0x30#8, 0x34#8],
      ∃ (s : State) (rest rest' : List HostAction), s.pending = .access ⟨.wr, o, 4, 0xFFFFFFFF#32⟩ :: rest
        ∧ s.fault = false ∧ rest = .access ⟨.rd, o, 4, 0#32⟩ :: rest')
    ∧ ∃ s t u : State, s.pending = [.access ⟨.wr, 0x34#8, 4, 7#32⟩] ∧ s.fault = false ∧ Instr.put ≠ .start
      ∧ Instr.put ≠ .hash ∧ step s = .next t ∧ exec .put t = .next u ∧ u.fault = false :=
  ⟨fun o _ => ⟨{ base with pending := [.access ⟨.wr, o, 4, 0xFFFFFFFF#32⟩, .access ⟨.rd, o, 4, 0#32⟩] }, _, _, rfl, rfl, rfl⟩,
    ⟨bus .wr 0x34#8 4 7#32 (st .absorb .x86_32 3#4 0#32 5#32), _, _, rfl, rfl, by decide, by decide, rfl, rfl, by decide⟩⟩

theorem witness_WritesOfReadOnlyRegistersAreIgnored :
    (bus .wr 0x4C#8 4 1#32 base).pending = [.access ⟨.wr, 0x4C#8, 4, 1#32⟩]
    ∧ 0x4C#8 ∈ [0x04#8, 0x40#8, 0x44#8, 0x48#8, 0x4C#8] := by decide

theorem witness_MalformedAccessRaisesBadReg :
    (∃ (s : State) (b : BusAccess), s.pending = [.access b] ∧ s.fault = false ∧ b.width ≠ 4 ∧ b.kind = .rd)
    ∧ (∃ (s : State) (b : BusAccess), s.pending = [.access b] ∧ s.fault = false ∧ b.offset.toNat % 4 ≠ 0 ∧ b.kind = .wr)
    ∧ (∃ (s : State) (b : BusAccess), s.pending = [.access b] ∧ s.fault = false
        ∧ b.offset ∉ [0x00#8, 0x04#8, 0x08#8, 0x0C#8, 0x10#8, 0x14#8, 0x18#8, 0x20#8, 0x24#8, 0x28#8, 0x2C#8,
            0x30#8, 0x34#8, 0x40#8, 0x44#8, 0x48#8, 0x4C#8])
    ∧ ∃ (s t : State) (b : BusAccess), s.pending = [.access b] ∧ s.fault = false ∧ b.width = 4
        ∧ b.offset ∈ [0x00#8, 0x04#8, 0x08#8, 0x0C#8, 0x10#8, 0x14#8, 0x18#8, 0x20#8, 0x24#8, 0x28#8, 0x2C#8,
            0x30#8, 0x34#8, 0x40#8, 0x44#8, 0x48#8, 0x4C#8] ∧ step s = .next t ∧ t.fault = true :=
  ⟨⟨bus .rd 0x04#8 2 0#32 base, _, rfl, rfl, by decide, rfl⟩, ⟨bus .wr 0x02#8 4 0#32 base, _, rfl, rfl, by decide, rfl⟩,
    ⟨bus .wr 0x50#8 4 0#32 base, _, rfl, rfl, by decide⟩,
    ⟨bus .rd 0x4C#8 4 0#32 base, _, _, rfl, rfl, rfl, by decide, rfl, by decide⟩⟩

theorem witness_WriteSizeHalves :
    ∀ p ∈ [Phase.idle, .final, .absorb, .tail], ∀ o ∈ [0x14#8, 0x18#8],
      ∃ s : State, s.pending = [.access ⟨.wr, o, 4, 0xFFFFFFFF#32⟩] ∧ s.fault = false ∧ s.phase = p :=
  fun p _ o _ => ⟨bus .wr o 4 0xFFFFFFFF#32 (st p .x86_32 0#4 0#32 0#32), rfl, rfl, rfl⟩

theorem witness_ReadResultOnlyInFinal :
    ∀ n ∈ [0, 3], n < 4
      ∧ (∃ s : State, s.pending = [.access ⟨.rd, BitVec.ofNat 8 (0x40 + 4 * n), 4, 0#32⟩] ∧ s.phase ≠ .final ∧ s.fault = false)
      ∧ (∃ s : State, s.pending = [.access ⟨.rd, BitVec.ofNat 8 (0x40 + 4 * n), 4, 0#32⟩] ∧ s.phase ≠ .final ∧ s.fault = true)
      ∧ ∃ s : State, s.pending = [.access ⟨.rd, BitVec.ofNat 8 (0x40 + 4 * n), 4, 0#32⟩] ∧ s.phase = .final := by
  intro n hn
  refine ⟨by simp at hn; omega, ⟨bus .rd _ 4 0#32 base, rfl, nofun, rfl⟩,
    ⟨bus .rd _ 4 0#32 { bad with phase := .tail }, rfl, nofun, rfl⟩, ⟨bus .rd _ 4 0#32 bad, rfl, rfl⟩⟩

theorem witness_ReadRegistersReturnTheirValues :
    ∀ r ∈ [Reg.ctrl, .status, .addr, .len, .sizeLo, .sizeHi, .seed1Lo, .seed1Hi, .seed2Lo, .seed2Hi, .seed3, .seed4],
      ∃ s : State, s.pending = [.access ⟨.rd, offsetOf r, 4, 0#32⟩] ∧ s.fault = true :=
  fun r _ => ⟨bus .rd (offsetOf r) 4 0#32 bad, rfl, rfl⟩

theorem witness_ReadCmdReturnsZero : (bus .rd 0x10#8 4 0#32 base).pending = [.access ⟨.rd, 0x10#8, 4, 0#32⟩] := rfl

theorem witness_StartLoadsTheSeeds :
    ∀ c ∈ [0#2, 1#2, 2#2, 3#2], ∃ s : State, s.fault = false ∧ s.ctrl = c :=
  fun c _ => ⟨{ base with ctrl := c }, rfl, rfl⟩

/-- The phase clauses of the commands, each phase without a fault. -/
theorem witness_phases : ∀ p ∈ [Phase.idle, .absorb, .tail, .final], ∃ s : State, s.fault = false ∧ s.phase = p :=
  fun p _ => ⟨st p .x86_32 0#4 0#32 0#32, rfl, rfl⟩

theorem witness_PutSubmitsWholeBlocksAndKeepsTheTail :
    (∃ s : State, s.fault = false ∧ s.phase = .absorb ∧ 0 < s.len.toNat ∧ memSize s < s.addr.toNat + s.len.toNat)
    ∧ (∃ s : State, s.fault = false ∧ s.phase = .absorb ∧ s.count.toNat < 16 ∧ s.avar = .x86_128
        ∧ s.addr.toNat + s.len.toNat ≤ memSize s)
    ∧ ∃ s : State, s.fault = false ∧ s.phase = .absorb ∧ s.count.toNat < 4 ∧ s.avar = .x86_32 ∧ s.len = 0#32
        ∧ memSize s < s.addr.toNat :=
  ⟨⟨st .absorb .x86_128 15#4 254#32 3#32, by decide⟩, ⟨st .absorb .x86_128 15#4 253#32 3#32, by decide⟩,
    ⟨st .absorb .x86_32 3#4 0xFFFFFFFF#32 0#32, by decide⟩⟩

theorem witness_FinishFoldsTheTailAndFinalizes :
    (∃ s : State, s.fault = false ∧ s.phase = .tail ∧ s.count = 0#4) ∧ ∃ s : State, s.fault = false ∧ s.phase = .absorb
      ∧ s.count = 15#4 := ⟨⟨st .tail .x86_128 0#4 0#32 0#32, by decide⟩, ⟨st .absorb .x86_128 15#4 0#32 0#32, by decide⟩⟩

theorem witness_HashIsStartPutFinish :
    (∃ s : State, s.fault = false ∧ s.ctrl = 3#2)
    ∧ (∃ s : State, s.fault = false ∧ s.ctrl ≠ 3#2 ∧ 0 < s.len.toNat ∧ memSize s < s.addr.toNat + s.len.toNat)
    ∧ (∃ s : State, s.fault = false ∧ s.ctrl ≠ 3#2 ∧ s.len.toNat = 0)
    ∧ ∃ s : State, s.fault = false ∧ s.ctrl ≠ 3#2 ∧ 0 < s.len.toNat ∧ s.addr.toNat + s.len.toNat ≤ memSize s :=
  ⟨⟨{ base with ctrl := 3#2 }, by decide⟩, ⟨{ base with addr := 255#32, len := 2#32 }, by decide⟩,
    ⟨{ base with addr := 0xFFFFFFFF#32 }, by decide⟩, ⟨{ base with ctrl := 2#2, addr := 255#32, len := 1#32 }, by decide⟩⟩

theorem witness_BlkPutSubmitsOneBlock :
    (∃ s : State, s.fault = false ∧ s.phase = .absorb ∧ s.count ≠ 0#4)
    ∧ (∃ s : State, s.fault = false ∧ s.phase = .absorb ∧ s.count = 0#4 ∧ s.avar = .x64_128 ∧ memSize s < s.addr.toNat + 16)
    ∧ ∃ s : State, s.fault = false ∧ s.phase = .absorb ∧ s.count = 0#4 ∧ s.avar = .x64_128 ∧ s.addr.toNat + 16 ≤ memSize s :=
  ⟨⟨st .absorb .x64_128 1#4 0#32 0#32, by decide⟩, ⟨st .absorb .x64_128 0#4 241#32 0#32, by decide⟩,
    ⟨st .absorb .x64_128 0#4 240#32 0#32, by decide⟩⟩

theorem witness_BlkPutnSubmitsLenBlocks :
    (∃ s : State, s.fault = false ∧ s.phase = .absorb ∧ s.count = 0#4 ∧ s.avar = .x86_128 ∧ 0 < s.len.toNat * 16
        ∧ memSize s < s.addr.toNat + s.len.toNat * 16)
    ∧ (∃ s : State, s.fault = false ∧ s.phase = .absorb ∧ s.count = 0#4 ∧ s.len.toNat * 16 = 0 ∧ memSize s < s.addr.toNat)
    ∧ ∃ s : State, s.fault = false ∧ s.phase = .absorb ∧ s.count = 0#4 ∧ s.avar = .x86_128 ∧ s.len.toNat = 2
        ∧ s.addr.toNat + s.len.toNat * 16 ≤ memSize s :=
  ⟨⟨st .absorb .x86_128 0#4 225#32 2#32, by decide⟩, ⟨st .absorb .x86_128 0#4 0xFFFFFFFF#32 0#32, by decide⟩,
    ⟨st .absorb .x86_128 0#4 224#32 2#32, by decide⟩⟩

theorem witness_BlkRemAcceptsOneShortRemainder :
    (∃ s : State, s.fault = false ∧ s.phase = .absorb ∧ s.count = 0#4 ∧ s.avar = .x86_128 ∧ 16 ≤ s.len.toNat)
    ∧ (∃ s : State, s.fault = false ∧ s.phase = .absorb ∧ s.count = 0#4 ∧ s.avar = .x86_128 ∧ s.len.toNat < 16
        ∧ 0 < s.len.toNat ∧ memSize s < s.addr.toNat + s.len.toNat)
    ∧ (∃ s : State, s.fault = false ∧ s.phase = .absorb ∧ s.count = 0#4 ∧ s.avar = .x86_128 ∧ s.len.toNat < 16
        ∧ s.addr.toNat + s.len.toNat ≤ memSize s)
    ∧ ∃ s : State, s.fault = false ∧ s.phase = .absorb ∧ s.count = 0#4 ∧ s.len = 0#32 ∧ memSize s < s.addr.toNat :=
  ⟨⟨st .absorb .x86_128 0#4 0#32 16#32, by decide⟩, ⟨st .absorb .x86_128 0#4 242#32 15#32, by decide⟩,
    ⟨st .absorb .x86_128 0#4 241#32 15#32, by decide⟩, ⟨st .absorb .x86_32 0#4 0xFFFFFFFF#32 0#32, by decide⟩⟩

theorem witness_BlkFinFinalizes :
    (∃ s : State, s.fault = false ∧ s.phase = .absorb ∧ s.count = 0#4) ∧ (∃ s : State, s.fault = false ∧ s.phase = .tail
      ∧ s.count = 0#4) ∧ ∃ s : State, s.fault = false ∧ s.phase = .tail ∧ s.count ≠ 0#4 :=
  ⟨⟨st .absorb .x86_32 0#4 0#32 0#32, by decide⟩, ⟨st .tail .x86_32 0#4 0#32 0#32, by decide⟩,
    ⟨st .tail .x86_32 3#4 0#32 0#32, by decide⟩⟩

theorem base_mem_wf : Memory.wf base.mem := by decide

theorem witness_GetWritesTheResultBytes :
    (∃ s : State, s.fault = false ∧ Memory.wf s.mem ∧ s.phase ≠ .final)
    ∧ (∃ s : State, s.fault = false ∧ Memory.wf s.mem ∧ s.phase = .final ∧ s.avar = .x64_128 ∧ memSize s < s.addr.toNat + 16)
    ∧ ∃ s : State, s.fault = false ∧ Memory.wf s.mem ∧ s.phase = .final ∧ s.avar = .x64_128
        ∧ s.addr.toNat + 16 ≤ memSize s :=
  ⟨⟨st .tail .x64_128 0#4 0#32 0#32, rfl, base_mem_wf, by decide⟩,
    ⟨st .final .x64_128 0#4 241#32 0#32, rfl, base_mem_wf, by decide⟩,
    ⟨st .final .x64_128 0#4 240#32 0#32, rfl, base_mem_wf, by decide⟩⟩

/-- For each command a state whose range ends at `MEM_SIZE`, and one whose range ends one byte beyond. -/
theorem witness_RangeCheckComesBeforeAnyEffect :
    ∀ x ∈ [(Instr.put, st .absorb .x86_32 0#4 255#32 1#32, st .absorb .x86_32 0#4 255#32 2#32),
        (.hash, st .absorb .x86_32 0#4 255#32 1#32, st .absorb .x86_32 0#4 255#32 2#32),
        (.blkPut, st .absorb .x86_32 0#4 252#32 0#32, st .absorb .x86_32 0#4 253#32 0#32),
        (.blkPutn, st .absorb .x86_32 0#4 252#32 1#32, st .absorb .x86_32 0#4 253#32 1#32),
        (.blkRem, st .absorb .x86_32 0#4 253#32 3#32, st .absorb .x86_32 0#4 254#32 3#32),
        (.get, st .final .x86_32 0#4 252#32 0#32, st .final .x86_32 0#4 253#32 0#32)],
      x.2.1.fault = false ∧ x.2.1.count = 0#4 ∧ x.2.1.ctrl ≠ 3#2 ∧ phaseCause x.1 x.2.1.phase = none
        ∧ x.2.1.addr.toNat + bytesTouched x.1 x.2.1 = memSize x.2.1
        ∧ x.2.2.fault = false ∧ x.2.2.addr.toNat + bytesTouched x.1 x.2.2 = memSize x.2.2 + 1 := by decide

theorem witness_BlockCommandsNeedAnEmptyBuffer :
    (∃ s : State, s.fault = false ∧ s.count ≠ 0#4 ∧ s.phase = .absorb)
    ∧ (∃ s : State, s.fault = false ∧ s.count ≠ 0#4 ∧ s.phase = .tail)
    ∧ ∃ s t : State, exec .get s = .next t ∧ t.fault = false :=
  ⟨⟨st .absorb .x86_32 1#4 0#32 0#32, by decide⟩, ⟨st .tail .x86_32 1#4 0#32 0#32, by decide⟩,
    ⟨st .final .x86_32 0#4 0#32 0#32, _, rfl, by decide⟩⟩

theorem witness_CommandsKeepTheHostRegisters :
    (∃ s t : State, exec .blkPut s = .next t ∧ t.fault = false) ∧ ∃ s t : State, exec .hash s = .next t ∧ s.fault = true :=
  ⟨⟨st .absorb .x86_32 0#4 0#32 0#32, _, rfl, by decide⟩, ⟨bad, _, rfl, rfl⟩⟩

theorem witness_OnlyStartAndHashReadCtrlAndSeeds :
    ∃ s t : State, Instr.put ≠ .start ∧ Instr.put ≠ .hash ∧ exec .put s = .next t ∧ t.fault = false :=
  ⟨st .absorb .x86_32 3#4 0#32 5#32, _, by decide, by decide, rfl, by decide⟩

theorem witness_OnlyGetWritesTheDataMemory :
    ∃ (s t : State) (a : HostAction), s.pending = [a] ∧ (∀ (x : Word) (v : Byte), a ≠ .memWrite x v)
      ∧ a ≠ .access ⟨.wr, 0x10#8, 4, 0x00000020#32⟩ ∧ step s = .next t :=
  ⟨bus .wr 0x10#8 4 0x00000010#32 (st .absorb .x86_32 0#4 0#32 0#32), _, .access ⟨.wr, 0x10#8, 4, 0x00000010#32⟩, rfl, nofun,
    by decide, rfl⟩

theorem witness_ReadingCommandsIgnoreTheAddressItself :
    ∃ (s t : State) (a a' : Word), a ≠ a' ∧ a.toNat + bytesTouched .hash s ≤ memSize s
      ∧ a'.toNat + bytesTouched .hash s ≤ memSize s ∧ bytesTouched .hash s = 40
      ∧ (∀ j, j < bytesTouched .hash s → loadByte s.mem (a.toNat + j) = loadByte s.mem (a'.toNat + j))
      ∧ exec .hash { s with addr := a } = .next t :=
  ⟨echo, _, 0#32, 216#32, by decide, by decide, by decide, by decide, by decide, rfl⟩

theorem witness_PhaseMovesOnlyAlongTheProtocol :
    ∃ s t : State, s.pending.head? ≠ some .rst ∧ step s = .next t ∧ t.phase ≠ s.phase :=
  ⟨bus .wr 0x10#8 4 0x01#32 base, _, by decide, rfl, by decide⟩

theorem witness_RotatorIsCircularOverTheFullWidth :
    0 ≤ 32 ∧ 32 ≤ 32 ∧ (15 ≤ 32 ∧ 15 ≠ 0 ∧ 15 ≠ 32) ∧ 31 < 32 := by decide

theorem witness_FinalMix32IsABijection :
    ∃ h a b c d e : Word, a = h ^^^ (h >>> 16) ∧ b = a * 0x85ebca6b#32 ∧ c = b ^^^ (b >>> 13) ∧ d = c * 0xc2b2ae35#32
      ∧ e = d ^^^ (d >>> 16) := ⟨0xFFFFFFFF#32, _, _, _, _, _, rfl, rfl, rfl, rfl, rfl⟩

theorem witness_FinalMix64IsABijection :
    ∃ k a b c d e : DWord, a = k ^^^ (k >>> 33) ∧ b = a * 0xff51afd7ed558ccd#64 ∧ c = b ^^^ (b >>> 33)
      ∧ d = c * 0xc4ceb9fe1a85ec53#64 ∧ e = d ^^^ (d >>> 33) := ⟨1#64, _, _, _, _, _, rfl, rfl, rfl, rfl, rfl⟩

theorem witness_ShuffleFollowsItsFormula : 0 < 32 ∧ 0 ≤ 32 ∧ 32 ≤ 32 ∧ 0 < 1 ∧ 1 ≤ 1 := by decide

theorem witness_UpdateFollowsItsFormula :
    ∃ h k t1 t2 t3 : Word, t1 = h ^^^ shuffle k 0xcc9e2d51#32 0x1b873593#32 15 ∧ t2 = rotl t1 13 ∧ t3 = t2 + 0xFFFFFFFF#32 :=
  ⟨0#32, 1#32, _, _, _, rfl, rfl, rfl⟩

theorem witness_BlockWordsAreLittleEndian : 3 < 4 ∧ 7 < 8 := by decide

theorem witness_HasherOfX86_128 :
    ∃ (h : Lanes) (t : List Byte) (k1 k2 k3 k4 l p : Word), k1 = h.h1.setWidth 32 ∧ k2 = h.h2.setWidth 32
      ∧ k3 = h.h3.setWidth 32 ∧ k4 = h.h4.setWidth 32 ∧ l = (21#64).setWidth 32 ∧ t.length ≤ 15 ∧ 12 < t.length
      ∧ p = update k1 (blockWord32 t 0) k2 0x239b961b#32 0xab0e9789#32 15 19 0x561ccd1b#32 :=
  ⟨lanes 1#64 2#64 3#64 4#64, range 15, _, _, _, _, _, _, rfl, rfl, rfl, rfl, rfl, by decide, by decide, rfl⟩

theorem witness_HasherOfX64_128 :
    ∃ (h : Lanes) (t : List Byte) (p : DWord), t.length ≤ 15 ∧ 8 < t.length
      ∧ p = update h.h1 (blockWord64 t 0) h.h2 0x87c37b91114253d5#64 0x4cf5ad432745937f#64 31 27 0x52dce729#64 :=
  ⟨lanes 1#64 2#64 0#64 0#64, range 15, _, by decide, by decide, rfl⟩

theorem witness_HashComputesTheWholeMessageFunction :
    (∃ s : State, s.fault = false ∧ s.ctrl = 2#2 ∧ s.addr.toNat + s.len.toNat ≤ memSize s ∧ s.len.toNat = 16)
    ∧ ∃ s : State, s.fault = false ∧ s.ctrl = 1#2 ∧ s.len.toNat = 0 ∧ memSize s < s.addr.toNat :=
  ⟨⟨{ base with ctrl := 2#2, addr := 240#32, len := 16#32 }, by decide⟩,
    ⟨{ base with ctrl := 1#2, addr := 0xFFFFFFFF#32 }, by decide⟩⟩

/-- Program P6 in small: 5 bytes and then 2, in `x86_32`. -/
theorem feeds_two_chunks : ∃ t, Feeds (st .absorb .x86_32 0#4 0#32 0#32) [range 5, [5#8, 6#8]] t :=
  ⟨_, .chunk _ _ _ base.mem 0#32 5#32 _ rfl (by decide) (.chunk _ _ _ base.mem 5#32 2#32 _ rfl (by decide) (.done _))⟩

theorem witness_StreamComputesTheWholeMessageFunction :
    ∃ (s t : State) (chunks : List (List Byte)), s.phase = .absorb ∧ s.fault = false ∧ s.count = 0#4 ∧ s.size = 0#64
      ∧ Feeds s chunks t ∧ chunks.flatten = range 7 := by
  obtain ⟨t, h⟩ := feeds_two_chunks
  exact ⟨_, t, _, rfl, rfl, rfl, rfl, h, by decide⟩

theorem witness_SizeCountsTheSubmittedBytes :
    ∃ (s t : State) (chunks : List (List Byte)), s.phase = .absorb ∧ s.fault = false ∧ s.count = 0#4 ∧ s.size = 0#64
      ∧ Feeds s chunks t := by
  obtain ⟨t, h⟩ := feeds_two_chunks
  exact ⟨_, t, _, rfl, rfl, rfl, rfl, h⟩

theorem witness_ChunkingDoesNotMatter :
    ∃ (s t u : State) (chunks : List (List Byte)), s.phase = .absorb ∧ s.fault = false
      ∧ s.count.toNat < blockBytes s.avar ∧ Feeds s chunks t
      ∧ exec .put { s with mem := base.mem, addr := 0#32, len := 7#32 } = .next u ∧ u.fault = false
      ∧ memRead base.mem (0#32).toNat (7#32).toNat = chunks.flatten := by
  obtain ⟨t, h⟩ := feeds_two_chunks
  exact ⟨_, t, _, _, rfl, rfl, by decide, h, rfl, by decide, by decide⟩

theorem witness_BlockPathEqualsStreamPath :
    ∃ (s s1 s2 t1 : State), s.phase = .absorb ∧ s.fault = false ∧ s.count = 0#4
      ∧ (3#32).toNat < blockBytes s.avar ∧ (7#32).toNat = (1#32).toNat * blockBytes s.avar + (3#32).toNat
      ∧ (4#32).toNat = (0#32).toNat + (1#32).toNat * blockBytes s.avar
      ∧ exec .blkPutn { s with addr := 0#32, len := 1#32 } = .next s1 ∧ s1.fault = false
      ∧ exec .blkRem { s1 with addr := 4#32, len := 3#32 } = .next s2 ∧ s2.fault = false
      ∧ exec .put { s with addr := 0#32, len := 7#32 } = .next t1 ∧ t1.fault = false :=
  ⟨st .absorb .x86_32 0#4 0#32 0#32, _, _, _, rfl, rfl, rfl, by decide, by decide, by decide, rfl, by decide, rfl, by decide,
    rfl, by decide⟩

theorem witness_BlkPutnIsOneBlockThenTheRest :
    ∃ (s x y z : State), s.phase = .absorb ∧ s.fault = false ∧ s.count = 0#4 ∧ s.len.toNat = (1#32).toNat + 1
      ∧ (4#32).toNat = s.addr.toNat + blockBytes s.avar ∧ exec .blkPutn s = .next x ∧ x.fault = false
      ∧ exec .blkPut s = .next y ∧ y.fault = false
      ∧ exec .blkPutn { y with addr := 4#32, len := 1#32 } = .next z ∧ z.fault = false :=
  ⟨st .absorb .x86_32 0#4 0#32 2#32, _, _, _, rfl, rfl, rfl, by decide, by decide, rfl, by decide, rfl, by decide, rfl, by decide⟩

theorem witness_EveryStepKeepsTheInvariant :
    ∃ s t : State, s.Inv ∧ step s = .next t ∧ t.phase = .final :=
  ⟨bus .wr 0x10#8 4 0x03#32 (st .absorb .x86_128 15#4 0#32 0#32), _,
    ⟨base_mem_wf, by decide, by decide, by decide, ⟨rfl, rfl, rfl, rfl⟩, by decide, by decide⟩, rfl, rfl⟩

theorem witness_DeadBufferBytesAreNeverObserved :
    (∃ s t s' : State, AgreeButDeadBuffer s t ∧ s ≠ t ∧ s.count.toNat < blockBytes s.avar ∧ step s = .next s')
    ∧ ∃ s t : State, AgreeButDeadBuffer s t ∧ s.count.toNat < blockBytes s.avar ∧ step s = .fault .hostAddressAbsent :=
  ⟨⟨bus .wr 0x10#8 4 0x03#32 (st .absorb .x86_32 3#4 0#32 0#32),
      { bus .wr 0x10#8 4 0x03#32 (st .absorb .x86_32 3#4 0#32 0#32) with buf := bufWrite base.buf 3 [1#8] }, _,
      ⟨rfl, by decide⟩, fun h => absurd (congrArg State.buf h) (by decide), by decide, rfl⟩,
    ⟨{ base with pending := [.memRead 256#32] }, _, ⟨rfl, rfl⟩, by decide, rfl⟩⟩

theorem witness_HostReadsWhatWasLastWritten :
    ∃ s : State, Memory.wf s.mem ∧ (255#32).toNat < memSize s ∧ (0#32).toNat < memSize s
      ∧ s.pending = [.memWrite 255#32 9#8, .memRead 0#32] :=
  ⟨{ base with pending := [.memWrite 255#32 9#8, .memRead 0#32] }, base_mem_wf, by decide, by decide, rfl⟩

theorem witness_InstancesShareOnlyTheMemory :
    ∃ y z y' : System, y.mem = z.mem ∧ y.memLast = z.memLast ∧ y.units[0]? = z.units[0]? ∧ y ≠ z ∧ stepUnit 0 y = .next y' :=
  ⟨⟨base.mem, 255#32, [bus .wr 0x10#8 4 0x01#32 base, bad]⟩, ⟨base.mem, 255#32, [bus .wr 0x10#8 4 0x01#32 base]⟩, _, rfl, rfl,
    rfl, fun h => absurd (congrArg (fun u => u.units.length) h) (by decide), rfl⟩

end Sys2Proof.Tests
end

section
/-! PROOFS about the data memory (20_memory.md): the order of a block's bytes in its words (R64), and the memory-range check of
the commands that reach the memory (R66). -/

namespace Sys2Proof.Machine

/-! ### The words of a block (R64) -/

/-- Byte `i` of `list[a .. b)` is byte `a + i` of the list. -/
theorem slice_getD (bytes : List Byte) {a b i : Nat} (h : a + i < b) :
    (slice bytes a b).getD i 0#8 = bytes.getD (a + i) 0#8 := by
  have hi : i < b - a := by omega
  simp [slice, List.getD_eq_getElem?_getD, List.getElem?_take_of_lt hi]

theorem blockWord32_byte (blk : List Byte) (j : Nat) {i : Nat} (h : i < 4) :
    (blockWord32 blk j).extractLsb' (8 * i) 8 = blk.getD (4 * j + i) 0#8 := by
  rw [blockWord32, word32, ofNat_packLE_byte 32 _ i (by omega), slice_getD blk (by omega)]

theorem blockWord64_byte (blk : List Byte) (j : Nat) {i : Nat} (h : i < 8) :
    (blockWord64 blk j).extractLsb' (8 * i) 8 = blk.getD (8 * j + i) 0#8 := by
  rw [blockWord64, word64, ofNat_packLE_byte 64 _ i (by omega), slice_getD blk (by omega)]

/-- Settles O41: a byte of a packed word is a byte of the packed list, and a block word packs a slice of the block. -/
theorem blockWordsAreLittleEndian : Obligations.BlockWordsAreLittleEndian :=
  ⟨fun blk j _ h => blockWord32_byte blk j h, fun blk j _ h => blockWord64_byte blk j h⟩

/-! ### The range check (R66) -/

/-- The checks of a command that come before its memory range pass: phase, `COUNT`, operand (60_exceptions.md R274, steps 3
to 5). -/
structure PassesToRange (i : Instr) (s : State) : Prop where
  phase : phaseCause i s.phase = none
  count : countCause i s = none
  operand : operandCause i s = none

/-- Once the earlier checks pass, the range decides. -/
theorem PassesToRange.commandCause_eq {i : Instr} {s : State} (h : PassesToRange i s) :
    commandCause i s = rangeCause (bytesTouched i s) s := by
  unfold commandCause
  rw [h.phase, h.count, h.operand]
  cases rangeCause (bytesTouched i s) s <;> rfl

/-- A range that leaves the memory: `E_MEM_RANGE` and nothing else. -/
theorem PassesToRange.exec_outside {i : Instr} {s : State} (h : PassesToRange i s) (hf : s.fault = false)
    (h0 : 0 < bytesTouched i s) (hn : memSize s < s.addr.toNat + bytesTouched i s) :
    exec i s = .next (faulted 11#4 s) :=
  exec_of_cause hf (h.commandCause_eq.trans (rangeCause_eq_some h0 hn))

/-- A range inside the memory, or an empty one anywhere: the command's own effect. -/
theorem PassesToRange.exec_inside {i : Instr} {s : State} (h : PassesToRange i s) (hf : s.fault = false)
    (hn : bytesTouched i s = 0 ∨ s.addr.toNat + bytesTouched i s ≤ memSize s) :
    exec i s = .next (effectOf i s) :=
  exec_of_pass hf (h.commandCause_eq.trans (rangeCause_eq_none.mpr hn))

theorem effectOf_fault (i : Instr) (s : State) : (effectOf i s).fault = s.fault := (effectOf_host i s).fault

theorem put_passesToRange {s : State} (hp : s.phase = .absorb) : PassesToRange .put s :=
  ⟨by rw [hp]; rfl, rfl, rfl⟩

theorem hash_passesToRange {s : State} (hv : s.ctrl ≠ 3#2) : PassesToRange .hash s := by
  have hsome : variantOfCode s.ctrl ≠ none := mt variantOfCode_eq_none.mp hv
  exact ⟨rfl, rfl, if_neg (by simpa using hsome)⟩

theorem blkPut_passesToRange {s : State} (hp : s.phase = .absorb) (hc : s.count = 0#4) : PassesToRange .blkPut s :=
  ⟨by rw [hp]; rfl, if_neg (not_not.mpr hc), rfl⟩

theorem blkPutn_passesToRange {s : State} (hp : s.phase = .absorb) (hc : s.count = 0#4) : PassesToRange .blkPutn s :=
  ⟨by rw [hp]; rfl, if_neg (not_not.mpr hc), rfl⟩

theorem blkRem_passesToRange {s : State} (hp : s.phase = .absorb) (hc : s.count = 0#4)
    (hl : s.len.toNat < blockBytes s.avar) : PassesToRange .blkRem s :=
  ⟨by rw [hp]; rfl, if_neg (not_not.mpr hc), if_neg (Nat.not_le.mpr hl)⟩

theorem get_passesToRange {s : State} (hp : s.phase = .final) : PassesToRange .get s :=
  ⟨by rw [hp]; rfl, rfl, rfl⟩

/-- Settles O31: each of the six commands gets as far as its range check, and its `n` is `bytesTouched`. -/
theorem rangeCheckComesBeforeAnyEffect : Obligations.RangeCheckComesBeforeAnyEffect := by
  intro s i b n hf hb hcmd
  have hB : b = blockBytes s.avar := hb
  have key : n = bytesTouched i s ∧ PassesToRange i s := by
    rcases hcmd with ⟨rfl, hn, hp⟩ | ⟨rfl, hn, hv⟩ | ⟨rfl, hn, hp, hc⟩ | ⟨rfl, hn, hp, hc⟩ | ⟨rfl, hn, hp, hc, hl⟩
      | ⟨rfl, hn, hp⟩
    · exact ⟨hn, put_passesToRange hp⟩
    · exact ⟨hn, hash_passesToRange hv⟩
    · exact ⟨hn.trans hB, blkPut_passesToRange hp hc⟩
    · exact ⟨by rw [hn, hB, bytesTouched], blkPutn_passesToRange hp hc⟩
    · exact ⟨hn, blkRem_passesToRange hp hc (hB ▸ hl)⟩
    · exact ⟨by rw [hn, hB, bytesTouched, resultBytes_eq_blockBytes], get_passesToRange hp⟩
  obtain ⟨rfl, hpass⟩ := key
  exact ⟨hpass.exec_outside hf, fun hn => ⟨_, hpass.exec_inside hf hn, (effectOf_fault i s).trans hf⟩⟩

end Sys2Proof.Machine
end

section
/-! PROOFS about the encoding (30_encoding.md): which words decode to a command (R86), and the expansion of the
pseudo-instructions (R90). -/

namespace Sys2Proof

/-! ### The fields of a CMD word (R82) -/

/-- `OPCODE` and the reserved bits make up the whole word. -/
theorem word_eq_of_fields {v w : Word} (ho : opcodeField v = opcodeField w) (hr : reservedField v = reservedField w) :
    v = w := by
  have ho : v.toNat % 2 ^ 8 = w.toNat % 2 ^ 8 := by
    simpa [opcodeField] using congrArg BitVec.toNat ho
  have hr : v.toNat / 2 ^ 8 % 2 ^ 24 = w.toNat / 2 ^ 8 % 2 ^ 24 := by
    simpa [reservedField, Nat.shiftRight_eq_div_pow] using congrArg BitVec.toNat hr
  bv_omega

/-- The per-command facts of `Laws.CommandWord`, for every command at once. -/
theorem commandWord_statement (i : Instr) : Laws.CommandWord.Statement i :=
  match i with
  | .start => Laws.CommandWord.start
  | .put => Laws.CommandWord.put
  | .finish => Laws.CommandWord.finish
  | .hash => Laws.CommandWord.hash
  | .blkPut => Laws.CommandWord.blkPut
  | .blkPutn => Laws.CommandWord.blkPutn
  | .blkRem => Laws.CommandWord.blkRem
  | .blkFin => Laws.CommandWord.blkFin
  | .get => Laws.CommandWord.get

@[simp] theorem opcodeField_encode (i : Instr) : opcodeField (encode i) = opcodeOf i := (commandWord_statement i).1

@[simp] theorem reservedField_encode (i : Instr) : reservedField (encode i) = 0#24 := (commandWord_statement i).2

theorem eq_encode_iff {w : Word} {i : Instr} : w = encode i ↔ reservedField w = 0#24 ∧ opcodeField w = opcodeOf i := by
  constructor
  · rintro rfl
    simp
  · rintro ⟨hr, ho⟩
    exact word_eq_of_fields (by simp [ho]) (by simp [hr])

/-! ### The opcode map (R84) -/

/-- A row of the map pairs a command with its OPCODE. -/
theorem opcode_eq_of_mem_opcodeMap : ∀ row ∈ opcodeMap, row.opcode = opcodeOf row.command := by decide

/-- Looking up the OPCODE of a command finds the command's own row: no two rows share an OPCODE. -/
theorem find?_opcodeMap_opcodeOf (i : Instr) :
    opcodeMap.find? (fun row => row.opcode = opcodeOf i) = some ⟨opcodeOf i, i⟩ := by
  cases i <;> rfl

/-! ### The decode function (R86) -/

/-- A reserved bit decides, whatever `OPCODE` is. -/
theorem decode_of_reservedField_ne {w : Word} (h : reservedField w ≠ 0#24) : decode w = .error .reservedBitsSet :=
  if_pos h

/-- With the reserved bits clear, an `OPCODE` that stands in no row of the map is unassigned. -/
theorem decode_of_opcodeField_notMem {w : Word} (hr : reservedField w = 0#24)
    (ho : opcodeField w ∉ opcodeMap.map OpcodeRow.opcode) : decode w = .error .unassignedOpcode := by
  have hfind : opcodeMap.find? (fun row => row.opcode = opcodeField w) = none :=
    List.find?_eq_none.mpr fun row hrow heq =>
      ho (List.mem_map.mpr ⟨row, hrow, of_decide_eq_true heq⟩)
  simp [decode, hr, hfind]

@[simp] theorem decode_encode (i : Instr) : decode (encode i) = .ok i := by
  simp [decode, find?_opcodeMap_opcodeOf]

/-- Decoding accepts the encoder's words and no others. -/
theorem decode_eq_ok_iff {w : Word} {i : Instr} : decode w = .ok i ↔ w = encode i := by
  refine ⟨fun h => ?_, fun h => h ▸ decode_encode i⟩
  unfold decode at h
  split at h
  · cases h
  · next hr =>
    split at h
    · next row hfind =>
      cases h
      have hmap := opcode_eq_of_mem_opcodeMap row (List.mem_of_find?_eq_some hfind)
      have hrow : row.opcode = opcodeField w := of_decide_eq_true (List.find?_some hfind :)
      exact eq_encode_iff.mpr ⟨not_not.mp hr, hrow.symm.trans hmap⟩
    · cases h

/-- Settles O7: the nine words are the encoder's, and the two kinds of illegal word are those that the two tests of the
decoder turn away. -/
theorem decodeAcceptsExactlyTheNineWords : Obligations.DecodeAcceptsExactlyTheNineWords :=
  ⟨fun _ i => by cases i <;> exact decode_eq_ok_iff,
    fun _ hr => decode_of_reservedField_ne hr,
    fun _ hr ho => decode_of_opcodeField_notMem hr ho⟩

end Sys2Proof

namespace Sys2Proof.Machine

/-! ### The pseudo-instructions (R90) -/

/-- Settles O57: each of the twelve lines evaluates to its row, with the register offsets and command words as literals. -/
theorem pseudoInstructionsExpandExactly : Obligations.PseudoInstructionsExpandExactly := by
  intro v a n s s1 s2 s3 s4 q1 q2
  exact ⟨rfl, rfl, rfl, rfl, rfl, rfl, rfl, rfl, rfl, rfl, rfl, rfl⟩

end Sys2Proof.Machine
end

section
/-! PROOFS about the bit-mixing primitives (40_mixing.md): the rotator (R101). -/

namespace Sys2Proof.Machine

variable {w : Nat} (x : BitVec w)

/-- At both ends of its range the rotator leaves the word as it is. -/
theorem rotl_of_end {r : Nat} (hr : r = 0 ∨ r = w) : rotl x r = x :=
  if_pos hr

/-- Strictly between the ends the rotator joins the two shifted parts of the word. -/
theorem rotl_of_between {r : Nat} (h0 : r ≠ 0) (hw : r ≠ w) : rotl x r = x <<< r ||| x >>> (w - r) :=
  if_neg (not_or.mpr ⟨h0, hw⟩)

/-- On its range the rotator is the library's rotation, whose count is taken modulo the width. -/
theorem rotl_eq_rotateLeft {r : Nat} (hr : r ≤ w) : rotl x r = x.rotateLeft r := by
  rw [BitVec.rotateLeft_def]
  by_cases hend : r = 0 ∨ r = w
  · have hmod : r % w = 0 := by rcases hend with rfl | rfl <;> simp
    simp [rotl_of_end x hend, hmod, BitVec.ushiftRight_eq_zero]
  · obtain ⟨h0, hw⟩ := not_or.mp hend
    rw [rotl_of_between x h0 hw, Nat.mod_eq_of_lt (lt_of_le_of_ne hr hw)]

/-- Bit `i` of a rotated word is the bit of the word that stands `r` places below `i`, counted round the whole width. -/
theorem getLsbD_rotl {r i : Nat} (hr : r ≤ w) (hi : i < w) :
    (rotl x r).getLsbD i = x.getLsbD ((i + (w - r)) % w) := by
  rcases hr.eq_or_lt with rfl | hlt
  · rw [rotl_of_end x (.inr rfl), Nat.sub_self, Nat.add_zero, Nat.mod_eq_of_lt hi]
  · rw [rotl_eq_rotateLeft x hr, BitVec.getLsbD_rotateLeft_of_le hlt]
    by_cases hir : i < r
    · have hpos : (i + (w - r)) % w = w - r + i := by rw [Nat.mod_eq_of_lt] <;> omega
      simp [hir, hpos]
    · have hpos : (i + (w - r)) % w = i - r := by
        rw [show i + (w - r) = i - r + w by omega, Nat.add_mod_right, Nat.mod_eq_of_lt (by omega)]
      simp [hir, hi, hpos]

/-- Settles O38: the two ends and the formula are the rotator's two cases, and the bit law is that of the library's
rotation. -/
theorem rotatorIsCircularOverTheFullWidth : Obligations.RotatorIsCircularOverTheFullWidth :=
  ⟨fun _ x _ hr => ⟨rotl_of_end x, rotl_of_between x, fun _ hi => getLsbD_rotl x hr hi⟩, by decide, by decide⟩

end Sys2Proof.Machine
end

section
/-! PROOFS about the variant `x86_32` (41_x86_32.md): its block step, remainder step, finalize and result (R121 to R124), with
the packing of bytes as a concatenation of words. -/

namespace Sys2Proof.Machine

/-! ### Packing and unpacking as bit-vector operations (00_scope.md R11) -/

/-- One more byte in front of a packed list stands below the bits of the rest. -/
theorem packLE_cons_eq_append {n : Nat} {x : BitVec n} {bs : List Byte} (b : Byte) (hx : packLE bs = x.toNat) :
    packLE (b :: bs) = (x ++ b).toNat := by
  rw [packLE_cons, hx, BitVec.toNat_append, ← Nat.shiftLeft_add_eq_or_of_lt b.isLt, Nat.shiftLeft_eq]
  omega

theorem word32_eq_setWidth {n : Nat} {x : BitVec n} {bs : List Byte} (hx : packLE bs = x.toNat) :
    word32 bs = x.setWidth 32 := by
  rw [word32, hx, BitVec.ofNat_toNat]

theorem packLE_one (b0 : Byte) : packLE [b0] = b0.toNat := rfl

theorem packLE_two (b0 b1 : Byte) : packLE [b0, b1] = (b1 ++ b0 : BitVec 16).toNat :=
  packLE_cons_eq_append b0 (packLE_one b1)

theorem packLE_three (b0 b1 b2 : Byte) : packLE [b0, b1, b2] = (b2 ++ b1 ++ b0 : BitVec 24).toNat :=
  packLE_cons_eq_append b0 (packLE_two b1 b2)

theorem packLE_four (b0 b1 b2 b3 : Byte) : packLE [b0, b1, b2, b3] = (b3 ++ b2 ++ b1 ++ b0 : BitVec 32).toNat :=
  packLE_cons_eq_append b0 (packLE_three b1 b2 b3)

/-- The bytes of a value are its bits, eight at a time. -/
theorem unpackLE_toNat {w : Nat} (x : BitVec w) (n : Nat) :
    unpackLE x.toNat n = (List.range n).map fun i => x.extractLsb' (8 * i) 8 := by
  refine List.ext_getElem (by simp) fun i hi _ => ?_
  have hn : i < n := by simpa using hi
  rw [← List.getD_eq_getElem _ 0#8 hi, unpackLE_getD _ _ _ hn, List.getElem_map, List.getElem_range, pow256,
    BitVec.extractLsb', Nat.shiftRight_eq_div_pow]

/-- The low bytes of a 64-bit value are those of its low half. -/
theorem unpackLE_lo32 (v : DWord) {n : Nat} (hn : n ≤ 4) : unpackLE (lo32 v).toNat n = unpackLE v.toNat n := by
  rw [lo32_toNat, unpackLE_mod _ _ _ hn]

theorem lo32_eq_setWidth (v : DWord) : lo32 v = v.setWidth 32 :=
  (BitVec.setWidth_eq_extractLsb' (by decide)).symm

/-! ### The variant `x86_32` (41_x86_32.md) -/

/-- The block step mixes the packed block into lane 1 (R121). -/
theorem blockStep_x86_32 (h : Lanes) {blk : List Byte} {k : Word} (hk : blockWord32 blk 0 = k) :
    blockStep .x86_32 h blk = { h with
      h1 := (update (h.h1.setWidth 32) k 0#32 0xcc9e2d51#32 0x1b873593#32 15 13 0xe6546b64#32).setWidth 64 } := by
  rw [← hk, ← lo32_eq_setWidth]
  rfl

/-- A remainder of at least one byte folds its zero-extended bytes into lane 1 (R122). -/
theorem remainder_x86_32_cons {n : Nat} {x : BitVec n} (h : Lanes) {b : Byte} {bs : List Byte}
    (hx : packLE (b :: bs) = x.toNat) :
    remainder .x86_32 h (b :: bs) = { h with
      h1 := (h.h1.setWidth 32 ^^^ shuffle (x.setWidth 32) 0xcc9e2d51#32 0x1b873593#32 15).setWidth 64 } := by
  rw [← word32_eq_setWidth hx, ← lo32_eq_setWidth]
  have hlen : 1 ≤ (b :: bs).length := Nat.le_add_left 1 bs.length
  rw [remainder, remainderX86_32, if_pos hlen]
  rfl

/-- Finalize takes the low half of the byte count into lane 1 (R123). -/
theorem finalize_x86_32 (h : Lanes) (size : DWord) :
    finalize .x86_32 h size = { h with h1 := (finalMix32 (h.h1.setWidth 32 ^^^ size.setWidth 32)).setWidth 64 } := by
  rw [← lo32_eq_setWidth, ← lo32_eq_setWidth]
  rfl

/-- The result is the low half of lane 1, least significant byte first (R124). -/
theorem result_x86_32 (h : Lanes) :
    result .x86_32 h =
      [h.h1.extractLsb' 0 8, h.h1.extractLsb' 8 8, h.h1.extractLsb' 16 8, h.h1.extractLsb' 24 8] :=
  calc result .x86_32 h
    _ = unpackLE h.h1.toNat 4 := unpackLE_lo32 h.h1 le_rfl
    _ = (List.range 4).map fun i => h.h1.extractLsb' (8 * i) 8 := unpackLE_toNat h.h1 4
    _ = _ := rfl

/-- Settles O42: the packed bytes are concatenations, and the steps of `x86_32` act on lane 1's low half. -/
theorem hasherOfX86_32 : Obligations.HasherOfX86_32 := by
  intro h b0 b1 b2 b3 size
  have hblock : blockWord32 [b0, b1, b2, b3] 0 = b3 ++ b2 ++ b1 ++ b0 :=
    (word32_eq_setWidth (packLE_four b0 b1 b2 b3)).trans (BitVec.setWidth_eq _)
  exact ⟨blockStep_x86_32 h hblock, remainder_nil .x86_32 h, remainder_x86_32_cons h (packLE_one b0),
    remainder_x86_32_cons h (packLE_two b0 b1), remainder_x86_32_cons h (packLE_three b0 b1 b2),
    finalize_x86_32 h size, result_x86_32 h, lo32_eq_setWidth h.h1, rfl, rfl, rfl⟩

end Sys2Proof.Machine
end

section
/-! PROOFS about the stream commands (44_stream_commands.md): START (R180), FINISH (R183) and HASH as START, PUT and FINISH
(R184). -/

namespace Sys2Proof.Machine

/-! ### The first failing check (60_exceptions.md R274) -/

/-- The phase is checked before everything else. -/
theorem exec_of_phaseCause {i : Instr} {s : State} {c : Cause} (hf : s.fault = false)
    (hc : phaseCause i s.phase = some c) : exec i s = .next (faulted (causeCode c) s) :=
  exec_of_cause hf (by rw [commandCause, hc, firstCause_some])

/-- Of the checks of START and HASH the variant comes first: neither has a phase check or a `COUNT` check. -/
theorem exec_badVariant {i : Instr} {s : State} (hi : i = .start ∨ i = .hash) (hf : s.fault = false)
    (h3 : s.ctrl = 3#2) : exec i s = .next (faulted 10#4 s) := by
  have hnone : (variantOfCode s.ctrl).isNone := by rw [variantOfCode_eq_none.mpr h3, Option.isNone_none]
  have hcause : commandCause i s = some .badVariant := by
    rcases hi with rfl | rfl <;> simp [commandCause, phaseCause, countCause, operandCause, hnone]
  exact exec_of_cause hf hcause

/-! ### START (R180) -/

/-- A legal `CTRL.VARIANT` is the code of some variant. -/
theorem exists_variantCode_of_ne {c : BitVec 2} (h : c ≠ 3#2) : ∃ v, c = variantCode v := by
  obtain ⟨v, hv⟩ := Option.ne_none_iff_exists'.mp (mt variantOfCode_eq_none.mp h)
  exact ⟨v, variantOfCode_eq_some.mp hv⟩

theorem variantCode_ne_three (v : Variant) : variantCode v ≠ 3#2 := by cases v <;> decide

theorem startBody_of_variantCode {s : State} {v : Variant} (hv : s.ctrl = variantCode v) :
    startBody s = startWith v s := by
  rw [startBody, variantOfCode_eq_some.mpr hv]

/-- START and HASH have the same operand check, and START no phase check either. -/
theorem start_passesToRange {s : State} (hv : s.ctrl ≠ 3#2) : PassesToRange .start s :=
  ⟨rfl, rfl, (hash_passesToRange hv).operand⟩

theorem exec_start {s : State} {v : Variant} (hf : s.fault = false) (hv : s.ctrl = variantCode v) :
    exec .start s = .next (startWith v s) := by
  have hpass : PassesToRange .start s := start_passesToRange (hv ▸ variantCode_ne_three v)
  rw [hpass.exec_inside hf (.inl rfl), effectOf, startBody_of_variantCode hv]

/-- Settles O22: each legal code is one variant's, whose `startWith` is the update the statement writes out. -/
theorem startLoadsTheSeeds : Obligations.StartLoadsTheSeeds := fun _ hf =>
  ⟨exec_start (v := .x86_32) hf, exec_start (v := .x86_128) hf, exec_start (v := .x64_128) hf,
    exec_badVariant (.inl rfl) hf⟩

/-! ### FINISH (R183) -/

theorem finish_passesToRange {s : State} (hp : s.phase = .absorb ∨ s.phase = .tail) : PassesToRange .finish s :=
  ⟨by rcases hp with hp | hp <;> rw [hp] <;> rfl, rfl, rfl⟩

theorem exec_finish {s : State} (hf : s.fault = false) (hp : s.phase = .absorb ∨ s.phase = .tail) :
    exec .finish s = .next (finishBody s) :=
  (finish_passesToRange hp).exec_inside hf (.inl rfl)

/-- With an empty buffer FINISH has nothing to fold. -/
theorem finishBody_of_count_eq_zero {s : State} (hc : s.count = 0#4) : finishBody s = blkFinBody s := by
  have hfold : foldBuffer s = s := if_neg (not_not.mpr hc)
  rw [finishBody, hfold, blkFinBody]

/-- With an empty buffer FINISH and BLK_FIN make the same checks. -/
theorem commandCause_finish_of_count_eq_zero {s : State} (hc : s.count = 0#4) :
    commandCause .finish s = commandCause .blkFin s := by
  have hphase : phaseCause .finish s.phase = phaseCause .blkFin s.phase := by cases s.phase <;> rfl
  have hcount : countCause .blkFin s = none := if_neg (not_not.mpr hc)
  rw [commandCause, commandCause, hphase, hcount]
  rfl

/-- FINISH with an empty buffer is BLK_FIN, faulted or not, in every phase. -/
theorem exec_finish_eq_blkFin {s : State} (hc : s.count = 0#4) : exec .finish s = exec .blkFin s := by
  rw [exec_eq_command, exec_eq_command, commandCause_finish_of_count_eq_zero hc]
  simp only [command, effectOf, finishBody_of_count_eq_zero hc]

/-- Settles O24: the phase check stops FINISH in IDLE and FINAL; in ABSORB and TAIL its effect is one update. -/
theorem finishFoldsTheTailAndFinalizes : Obligations.FinishFoldsTheTailAndFinalizes := by
  intro s hf
  refine ⟨fun hp => ?idle, fun hp => ?final, fun hp => ?runs, exec_finish_eq_blkFin⟩
  case idle => exact exec_of_phaseCause (c := .notStarted) hf (by rw [hp]; rfl)
  case final => exact exec_of_phaseCause (c := .finTwice) hf (by rw [hp]; rfl)
  case runs => rw [exec_finish hf hp, finishBody_eq]

/-! ### HASH (R184) -/

/-- A started computation takes a PUT of a range that lies inside the memory or is empty, and stays in ABSORB. -/
theorem exec_put {s : State} (hf : s.fault = false) (hp : s.phase = .absorb)
    (hn : s.len.toNat = 0 ∨ s.addr.toNat + s.len.toNat ≤ memSize s) :
    exec .put s = .next (putBody s) ∧ (putBody s).phase = .absorb :=
  ⟨(put_passesToRange hp).exec_inside hf hn, (absorb_keeps _ s).1.trans hp⟩

/-- Settles O25: START leaves the range as it was and enters ABSORB, PUT stays there, so neither PUT nor FINISH faults; the
effect of HASH is the composition of theirs. -/
theorem hashIsStartPutFinish : Obligations.HashIsStartPutFinish := by
  intro s hf
  refine ⟨exec_badVariant (.inr rfl) hf, fun hv => (hash_passesToRange hv).exec_outside hf, fun hv hn => ?_⟩
  obtain ⟨v, hcode⟩ := exists_variantCode_of_ne hv
  have hstart : exec .start s = .next (startWith v s) := exec_start hf hcode
  have haf : (startWith v s).fault = false := hf
  obtain ⟨hput, hphase⟩ := exec_put haf (startWith_phase v s) hn
  have hbf : (putBody (startWith v s)).fault = false := (effectOf_fault .put _).trans haf
  have hfinish : exec .finish (putBody (startWith v s)) = .next (finishBody (putBody (startWith v s))) :=
    exec_finish hbf (.inl hphase)
  have hcf : (finishBody (putBody (startWith v s))).fault = false := (effectOf_fault .finish _).trans hbf
  have hhash : exec .hash s = .next (finishBody (putBody (startWith v s))) := by
    rw [(hash_passesToRange hv).exec_inside hf hn, effectOf, hashBody, startBody_of_variantCode hcode]
  exact ⟨_, _, _, hstart, haf, hput, hbf, hfinish, hcf, hhash⟩

end Sys2Proof.Machine
end

section
/-! PROOFS about the block commands (45_block_commands.md): the empty buffer they need (R215), BLK_PUT (R210), BLK_PUTN (R211),
BLK_REM (R212), BLK_FIN (R213) and GET (R214). -/

namespace Sys2Proof.Machine

/-! ### The checks before the memory range (60_exceptions.md R274, steps 3 to 5) -/

/-- The phase check, by a row and a column of its table. -/
theorem exec_in_phase (p : Phase) (c : Cause) {i : Instr} {s : State} (hc : phaseCause i p = some c)
    (hf : s.fault = false) (hp : s.phase = p) : exec i s = .next (faulted (causeCode c) s) :=
  exec_of_phaseCause hf (hp ▸ hc)

/-- After the phase, each of the four block commands checks that the buffer is empty (R215). -/
theorem exec_bufferNotEmpty {i : Instr} {s : State} (hi : i ∈ [Instr.blkPut, .blkPutn, .blkRem, .blkFin])
    (hf : s.fault = false) (hp : phaseCause i s.phase = none) (hc : s.count ≠ 0#4) :
    exec i s = .next (faulted 7#4 s) := by
  have hcount : countCause i s = some .bufferNotEmpty := by
    simp only [List.mem_cons, List.not_mem_nil, or_false] at hi
    rcases hi with rfl | rfl | rfl | rfl <;> exact if_pos hc
  exact exec_of_cause (c := .bufferNotEmpty) hf (by rw [commandCause, hp, hcount, firstCause_none, firstCause_some])

/-- ABSORB passes the phase check of all four block commands. -/
theorem phaseCause_block_absorb {i : Instr} (hi : i ∈ [Instr.blkPut, .blkPutn, .blkRem, .blkFin]) :
    phaseCause i .absorb = none := by
  revert i
  decide

theorem exec_bufferNotEmpty_of_absorb {i : Instr} {s : State} (hi : i ∈ [Instr.blkPut, .blkPutn, .blkRem, .blkFin])
    (hf : s.fault = false) (hp : s.phase = .absorb) (hc : s.count ≠ 0#4) : exec i s = .next (faulted 7#4 s) :=
  exec_bufferNotEmpty hi hf (hp ▸ phaseCause_block_absorb hi) hc

/-! ### BLK_FIN (R213) -/

/-- Both phases with a computation under way pass the phase check of BLK_FIN. -/
theorem phaseCause_blkFin {p : Phase} (hp : p = .absorb ∨ p = .tail) : phaseCause .blkFin p = none := by
  rcases hp with rfl | rfl <;> rfl

theorem blkFin_passesToRange {s : State} (hp : s.phase = .absorb ∨ s.phase = .tail) (hc : s.count = 0#4) :
    PassesToRange .blkFin s :=
  ⟨phaseCause_blkFin hp, if_neg (not_not.mpr hc), rfl⟩

theorem exec_blkFin_bufferNotEmpty {s : State} (hf : s.fault = false) (hp : s.phase = .absorb ∨ s.phase = .tail)
    (hc : s.count ≠ 0#4) : exec .blkFin s = .next (faulted 7#4 s) :=
  exec_bufferNotEmpty (by decide) hf (phaseCause_blkFin hp) hc

/-- Settles O29: past the phase and the empty buffer BLK_FIN has nothing left to check, for it touches no memory. -/
theorem blkFinFinalizes : Obligations.BlkFinFinalizes := fun _ hf =>
  ⟨exec_in_phase .idle .notStarted rfl hf, exec_in_phase .final .finTwice rfl hf, exec_blkFin_bufferNotEmpty hf,
    fun hp hc => (blkFin_passesToRange hp hc).exec_inside hf (.inl rfl)⟩

/-! ### The empty buffer, and GET that needs none (R215) -/

/-- GET neither checks, reads nor writes `COUNT`. -/
theorem exec_get_with_count {s t : State} (c : BitVec 4) (h : exec .get s = .next t) :
    exec .get { s with count := c } = .next { t with count := c } := by
  rcases exec_cases h with ⟨hf, rfl⟩ | ⟨hf, d, hd, rfl⟩ | ⟨hf, hnone, rfl⟩
  · exact exec_faulted (s := { t with count := c }) hf
  · exact exec_of_cause (s := { s with count := c }) hf hd
  · exact exec_of_pass (s := { s with count := c }) hf hnone

/-- Settles O32: the phase check passes in ABSORB, and for BLK_FIN in TAIL, so the `COUNT` check decides; GET has none. -/
theorem blockCommandsNeedAnEmptyBuffer : Obligations.BlockCommandsNeedAnEmptyBuffer := by
  refine ⟨fun s i hf hc hcmd => ?_, fun s t c h => exec_get_with_count c h⟩
  rcases hcmd with ⟨hi, hp⟩ | ⟨rfl, hp⟩
  · exact exec_bufferNotEmpty_of_absorb hi hf hp hc
  · exact exec_blkFin_bufferNotEmpty hf (.inr hp) hc

/-! ### BLK_PUT (R210) -/

/-- Settles O26: BLK_PUT touches the `B` bytes at `ADDR`, and its effect is the update the statement writes out. -/
theorem blkPutSubmitsOneBlock : Obligations.BlkPutSubmitsOneBlock := by
  intro s b hf hb
  obtain rfl : b = blockBytes s.avar := hb
  exact ⟨exec_in_phase .idle .notStarted rfl hf, exec_in_phase .tail .blockAfterRem rfl hf,
    exec_in_phase .final .mutateAfterFinal rfl hf, exec_bufferNotEmpty_of_absorb (by decide) hf,
    fun hp hc => (blkPut_passesToRange hp hc).exec_outside hf (blockBytes_pos s.avar),
    fun hp hc hn => (blkPut_passesToRange hp hc).exec_inside hf (.inr hn)⟩

/-! ### BLK_PUTN (R211) -/

/-- Block steps over one long read are block steps over the reads of its blocks. -/
theorem blockSteps_memRead (v : Variant) (m : List Host.Cell) (a n : Nat) (h : Lanes) :
    blockSteps v n (memRead m a (n * blockBytes v)) h =
      (List.range n).foldl (fun h j => blockStep v h (memRead m (a + j * blockBytes v) (blockBytes v))) h := by
  rw [blockSteps_eq_foldl]
  refine List.foldl_ext _ _ _ fun g j hj => ?_
  have hin : j * blockBytes v + blockBytes v ≤ n * blockBytes v := by
    rw [← Nat.succ_mul]
    exact Nat.mul_le_mul_right _ (List.mem_range.mp hj)
  rw [memRead_slice m a hin]

/-- BLK_PUTN in one update, as a loop over block numbers. -/
theorem blkPutnBody_eq (s : State) :
    blkPutnBody s = { s with
      lanes := (List.range s.len.toNat).foldl
        (fun h j => blockStep s.avar h (memRead s.mem (s.addr.toNat + j * blockBytes s.avar) (blockBytes s.avar))) s.lanes
      size := s.size + BitVec.ofNat 64 (s.len.toNat * blockBytes s.avar) } := by
  rw [blkPutnBody, operandBytes, bytesTouched, blockSteps_memRead]

/-- Settles O27: BLK_PUTN touches `LEN * B` bytes, checked before any block, and its effect is the loop over the blocks. -/
theorem blkPutnSubmitsLenBlocks : Obligations.BlkPutnSubmitsLenBlocks := by
  intro s b hf hb
  obtain rfl : b = blockBytes s.avar := hb
  refine ⟨exec_in_phase .idle .notStarted rfl hf, exec_in_phase .tail .blockAfterRem rfl hf,
    exec_in_phase .final .mutateAfterFinal rfl hf, exec_bufferNotEmpty_of_absorb (by decide) hf,
    fun hp hc => (blkPutn_passesToRange hp hc).exec_outside hf, fun hp hc hn => ?_⟩
  rw [(blkPutn_passesToRange hp hc).exec_inside hf hn, effectOf, blkPutnBody_eq]

/-! ### BLK_REM (R212) -/

/-- Of the checks of BLK_REM the length comes between the buffer and the memory range. -/
theorem exec_blkRem_remTooLong {s : State} (hf : s.fault = false) (hp : s.phase = .absorb) (hc : s.count = 0#4)
    (hl : blockBytes s.avar ≤ s.len.toNat) : exec .blkRem s = .next (faulted 1#4 s) := by
  have hphase : phaseCause .blkRem s.phase = none := hp ▸ rfl
  have hcount : countCause .blkRem s = none := if_neg (not_not.mpr hc)
  have hoperand : operandCause .blkRem s = some .remTooLong := if_pos hl
  exact exec_of_cause (c := .remTooLong) hf
    (by rw [commandCause, hphase, hcount, hoperand, firstCause_none, firstCause_none, firstCause_some])

theorem exec_blkRem {s : State} (hf : s.fault = false) (hp : s.phase = .absorb) (hc : s.count = 0#4)
    (hl : s.len.toNat < blockBytes s.avar) (hn : s.len.toNat = 0 ∨ s.addr.toNat + s.len.toNat ≤ memSize s) :
    exec .blkRem s = .next (blkRemBody s) :=
  (blkRem_passesToRange hp hc hl).exec_inside hf hn

/-- An empty remainder changes no lane and adds nothing to `SIZE`. -/
theorem blkRemBody_of_len_eq_zero {s : State} (h : s.len = 0#32) : blkRemBody s = { s with phase := .tail } := by
  simp [blkRemBody, operandBytes, bytesTouched, memRead, h]

/-- Settles O28: the length check stands between the buffer and the range; an empty remainder is shorter than any block. -/
theorem blkRemAcceptsOneShortRemainder : Obligations.BlkRemAcceptsOneShortRemainder := by
  intro s b hf hb
  obtain rfl : b = blockBytes s.avar := hb
  refine ⟨exec_in_phase .idle .notStarted rfl hf, exec_in_phase .tail .remTwice rfl hf,
    exec_in_phase .final .mutateAfterFinal rfl hf, exec_bufferNotEmpty_of_absorb (by decide) hf,
    exec_blkRem_remTooLong hf, fun hp hc hl => (blkRem_passesToRange hp hc hl).exec_outside hf, exec_blkRem hf,
    fun hp hc hlen => ?_⟩
  have h0 : s.len.toNat = 0 := by rw [hlen]; rfl
  rw [exec_blkRem hf hp hc (h0 ▸ blockBytes_pos s.avar) (.inl h0), blkRemBody_of_len_eq_zero hlen]

/-! ### GET (R214) -/

/-- GET is legal in FINAL alone. -/
theorem phaseCause_get {p : Phase} (hp : p ≠ .final) : phaseCause .get p = some .resultNotReady := by
  cases p with
  | final => exact absurd rfl hp
  | idle | absorb | tail => rfl

/-- Settles O30: the result is `RB` bytes long, so `loadByte_memWrite` says what every address reads as after GET. -/
theorem getWritesTheResultBytes : Obligations.GetWritesTheResultBytes := by
  intro s rb hf hwf hrb
  obtain rfl : rb = resultBytes s.avar := hrb
  have hpos : 0 < resultBytes s.avar := resultBytes_eq_blockBytes s.avar ▸ blockBytes_pos s.avar
  refine ⟨fun hp => exec_of_phaseCause (c := .resultNotReady) hf (phaseCause_get hp),
    fun hp => (get_passesToRange hp).exec_outside hf hpos,
    fun hp hn => ⟨_, (get_passesToRange hp).exec_inside hf (.inr hn), fun a hlo hhi => ?inside, fun a hout => ?outside⟩⟩
  case inside => rw [loadByte_memWrite hwf, result_length, if_pos ⟨hlo, hhi⟩, Config.blankByte]
  case outside => rw [loadByte_memWrite hwf, result_length, if_neg (by omega)]

end Sys2Proof.Machine
end

section
/-! PROOFS about the register accesses (46_register_access.md): what a step does with a read or a write of each register (R241 to
R249), with an access that is turned away (R245), and with a write of `CMD` (R250). -/

namespace Sys2Proof.Machine

/-! ### One access as one step -/

/-- A read that meets no fault returns the register's value and changes nothing else. -/
theorem step_read {s : State} {o : BitVec 8} {x : Word} {rest : List HostAction}
    (h : s.pending = .access ⟨.rd, o, 4, x⟩ :: rest) (r : Reg) (ho : o = offsetOf r) (hc : readCause r s = none) :
    step s = .next { s with pending := rest, replies := .word (registerValue r s) :: s.replies } := by
  subst ho
  have hc : readCause r { s with pending := rest } = none := hc
  rw [step_access h, busAccess_read, readRegister, hc]
  cases r <;> rfl

/-- A read that meets a fault raises it and returns 0. -/
theorem step_read_raise {s : State} {o : BitVec 8} {x : Word} {rest : List HostAction} {c : Cause}
    (h : s.pending = .access ⟨.rd, o, 4, x⟩ :: rest) (r : Reg) (ho : o = offsetOf r) (hc : readCause r s = some c) :
    step s = .next (reply (.word 0#32) (raise c { s with pending := rest })) := by
  subst ho
  have hc : readCause r { s with pending := rest } = some c := hc
  rw [step_access h, busAccess_read, readRegister, hc]

/-- A write that meets no fault stores into the register, which is not `CMD`. -/
theorem step_write {s : State} {o : BitVec 8} {d : Word} {rest : List HostAction}
    (h : s.pending = .access ⟨.wr, o, 4, d⟩ :: rest) (hf : s.fault = false) (r : Reg) (ho : o = offsetOf r)
    (hr : r ≠ .cmd) (hc : writeCause r s = none) : step s = .next (storeRegister r d { s with pending := rest }) := by
  subst ho
  have hc : writeCause r { s with pending := rest } = none := hc
  rw [step_access h, busAccess_write (s := { s with pending := rest }) hf hr, writeRegister, hc]

/-- A write that meets a fault raises it and stores nothing. -/
theorem step_write_raise {s : State} {o : BitVec 8} {d : Word} {rest : List HostAction} {c : Cause}
    (h : s.pending = .access ⟨.wr, o, 4, d⟩ :: rest) (hf : s.fault = false) (r : Reg) (ho : o = offsetOf r)
    (hr : r ≠ .cmd) (hc : writeCause r s = some c) :
    step s = .next (faulted (causeCode c) { s with pending := rest }) := by
  subst ho
  have hc : writeCause r { s with pending := rest } = some c := hc
  rw [step_access h, busAccess_write (s := { s with pending := rest }) hf hr, writeRegister, hc]
  exact congrArg _ (raise_eq_faulted hf)

/-- A write that finds a fault latched is ignored, whatever it names (R241). -/
theorem step_write_faulted {s : State} {b : BusAccess} {rest : List HostAction} (h : s.pending = .access b :: rest)
    (hk : b.kind = .wr) (hf : s.fault = true) : step s = .next { s with pending := rest } :=
  (step_access h).trans (busAccess_write_faulted hk hf)

/-! ### Reads (R247 to R249) -/

/-- Only `RESULTn` has a read that can fault, and only outside FINAL (R247). -/
theorem readCause_eq (r : Reg) (s : State) :
    readCause r s = if r ∈ [Reg.result0, .result1, .result2, .result3] ∧ s.phase ≠ .final then some .resultNotReady
      else none := by
  cases r <;> simp [readCause]

/-- `STATUS` from the codes of its fields, each as a whole word (R248). -/
theorem statusWord_eq {s : State} {p v f : Word} (hp : (phaseCode s.phase).setWidth 32 = p)
    (hv : (variantCode s.avar).setWidth 32 = v) (hf : (faultBit s.fault).setWidth 32 = f) :
    statusWord s = p ||| v <<< 2 ||| f <<< 4 ||| s.cause.setWidth 32 <<< 8 := by
  rw [statusWord, hp, hv, hf]

/-- Settles O20: `CMD` reads as 0 and its read cannot fault. -/
theorem readCmdReturnsZero : Obligations.ReadCmdReturnsZero :=
  fun _ _ _ h => step_read h .cmd rfl rfl

/-- Settles O19: the read of none of the twelve registers can fault, and each value is the register's; `STATUS` is put together
from the codes of its fields. -/
theorem readRegistersReturnTheirValues : Obligations.ReadRegistersReturnTheirValues := by
  intro s o x v rest h hv
  rcases hv with ⟨ho, rfl⟩ | ⟨ho, hv⟩ | ⟨ho, rfl⟩ | ⟨ho, rfl⟩ | ⟨ho, rfl⟩ | ⟨ho, rfl⟩ | ⟨ho, rfl⟩ | ⟨ho, rfl⟩
    | ⟨ho, rfl⟩ | ⟨ho, rfl⟩ | ⟨ho, rfl⟩ | ⟨ho, rfl⟩
  · exact step_read h .ctrl ho rfl
  · have hstatus : statusWord s = v := by
      rw [hv]
      apply statusWord_eq
      · cases s.phase <;> rfl
      · cases s.avar <;> rfl
      · cases s.fault <;> rfl
    rw [step_read h .status ho rfl, registerValue, hstatus]
  · exact step_read h .addr ho rfl
  · exact step_read h .len ho rfl
  · exact step_read h .sizeLo ho rfl
  · exact step_read h .sizeHi ho rfl
  · exact step_read h .seed1Lo ho rfl
  · exact step_read h .seed1Hi ho rfl
  · exact step_read h .seed2Lo ho rfl
  · exact step_read h .seed2Hi ho rfl
  · exact step_read h .seed3 ho rfl
  · exact step_read h .seed4 ho rfl

/-- The register `RESULTn`: its offset, and the four result bytes it shows (10_state.md R33). -/
theorem exists_resultRegister {n : Nat} (hn : n < 4) :
    ∃ r ∈ [Reg.result0, .result1, .result2, .result3], BitVec.ofNat 8 (0x40 + 4 * n) = offsetOf r
      ∧ ∀ s, registerValue r s = word32 (((result s.avar s.lanes).drop (4 * n)).take 4) := by
  have hvalue (s : State) := resultWord_eq s.avar s.lanes n hn
  match n, hn, hvalue with
  | 0, _, hvalue => exact ⟨.result0, by decide, rfl, hvalue⟩
  | 1, _, hvalue => exact ⟨.result1, by decide, rfl, hvalue⟩
  | 2, _, hvalue => exact ⟨.result2, by decide, rfl, hvalue⟩
  | 3, _, hvalue => exact ⟨.result3, by decide, rfl, hvalue⟩

/-- Settles O18: the phase decides whether the read of `RESULTn` faults, and a fault already latched stays as it is. -/
theorem readResultOnlyInFinal : Obligations.ReadResultOnlyInFinal := by
  intro s n x rest hn h
  obtain ⟨r, hr, ho, hvalue⟩ := exists_resultRegister hn
  have hraise (hp : s.phase ≠ .final) :=
    step_read_raise h r ho ((readCause_eq r s).trans (if_pos ⟨hr, hp⟩))
  refine ⟨fun hp hf => ?_, fun hp hf => ?_, fun hp => ?_⟩
  · rw [hraise hp, raise_eq_faulted (s := { s with pending := rest }) hf]
    rfl
  · rw [hraise hp, raise_of_fault (s := { s with pending := rest }) hf]
    rfl
  · rw [step_read h r ho ((readCause_eq r s).trans (if_neg fun hc => hc.2 hp)), hvalue, word32]

/-! ### Writes (R242 to R246) -/

/-- Settles O15: with no fault latched nothing is stored into these five, and with one latched every write is ignored. -/
theorem writesOfReadOnlyRegistersAreIgnored : Obligations.WritesOfReadOnlyRegistersAreIgnored := by
  intro s o d rest h ho
  rcases Bool.eq_false_or_eq_true s.fault with hf | hf
  · exact step_write_faulted h rfl hf
  · simp only [List.mem_cons, List.not_mem_nil, or_false] at ho
    rcases ho with ho | ho | ho | ho | ho
    · exact step_write h hf .status ho nofun rfl
    · exact step_write h hf .result0 ho nofun rfl
    · exact step_write h hf .result1 ho nofun rfl
    · exact step_write h hf .result2 ho nofun rfl
    · exact step_write h hf .result3 ho nofun rfl

/-! The phase alone decides whether a write of a half of `SIZE` faults (R246). -/

theorem writeCause_size_idle {r : Reg} {s : State} (hr : r = .sizeLo ∨ r = .sizeHi) (hp : s.phase = .idle) :
    writeCause r s = some .notStarted := by
  rcases hr with rfl | rfl <;> simp [writeCause, hp]

theorem writeCause_size_final {r : Reg} {s : State} (hr : r = .sizeLo ∨ r = .sizeHi) (hp : s.phase = .final) :
    writeCause r s = some .mutateAfterFinal := by
  rcases hr with rfl | rfl <;> simp [writeCause, hp]

theorem writeCause_size_started {r : Reg} {s : State} (hr : r = .sizeLo ∨ r = .sizeHi)
    (hp : s.phase = .absorb ∨ s.phase = .tail) : writeCause r s = none := by
  rcases hr with rfl | rfl <;> rcases hp with hp | hp <;> simp [writeCause, hp]

/-- Settles O17: the phase gives the cause, and where there is none the store is the update the statement writes out. -/
theorem writeSizeHalves : Obligations.WriteSizeHalves := by
  intro s o d rest h hf ho
  obtain ⟨r, hr, hor⟩ : ∃ r, (r = .sizeLo ∨ r = .sizeHi) ∧ o = offsetOf r := by
    rcases ho with ho | ho
    · exact ⟨.sizeLo, .inl rfl, ho⟩
    · exact ⟨.sizeHi, .inr rfl, ho⟩
  have hcmd : r ≠ .cmd := by rcases hr with rfl | rfl <;> nofun
  refine ⟨fun hp => step_write_raise h hf r hor hcmd (writeCause_size_idle hr hp),
    fun hp => step_write_raise h hf r hor hcmd (writeCause_size_final hr hp), fun hp => ⟨fun ho => ?_, fun ho => ?_⟩⟩
  · exact step_write h hf .sizeLo ho nofun (writeCause_size_started (.inl rfl) hp)
  · exact step_write h hf .sizeHi ho nofun (writeCause_size_started (.inr rfl) hp)

/-! ### Admission (R245) -/

/-- The seventeen offsets are those at which a register stands. -/
theorem mem_mappedOffsets_iff {o : BitVec 8} :
    o ∈ [0x00#8, 0x04#8, 0x08#8, 0x0C#8, 0x10#8, 0x14#8, 0x18#8, 0x20#8, 0x24#8, 0x28#8, 0x2C#8, 0x30#8, 0x34#8, 0x40#8,
      0x44#8, 0x48#8, 0x4C#8] ↔ ∃ r, o = offsetOf r := by
  constructor
  · intro ho
    obtain ⟨r, -, hr⟩ := List.mem_map.mp (show o ∈ registerMap.map offsetOf from ho)
    exact ⟨r, hr.symm⟩
  · rintro ⟨r, rfl⟩
    cases r <;> decide

theorem causeCode_ne_twelve {c : Cause} (h : c ≠ .badReg) : causeCode c ≠ 12#4 := by
  cases c with
  | badReg => exact absurd rfl h
  | _ => decide

/-- A read raises `E_RESULT_NOT_READY` or nothing. -/
theorem readCause_ne_badReg (r : Reg) (s : State) : readCause r s ≠ some .badReg := by
  rw [readCause_eq]
  split <;> simp

/-- A write raises one of the two causes of the phase or nothing. -/
theorem writeCause_ne_badReg (r : Reg) (s : State) : writeCause r s ≠ some .badReg := by
  cases r <;> cases hp : s.phase <;> simp [writeCause, hp]

/-- No store touches the fault. -/
@[simp] theorem storeRegister_fault (r : Reg) (d : Word) (s : State) : (storeRegister r d s).fault = s.fault := by
  cases r <;> rfl

/-- An access that is not turned away never raises `E_BAD_REG`: no register's own rule and no command does (R240). -/
theorem busAccess_cause_ne_badReg {b : BusAccess} {s t : State} (hf : s.fault = false) (hb : admittedRegister b ≠ none)
    (h : busAccess b s = .next t) (ht : t.fault = true) : t.cause ≠ 12#4 := by
  rcases busAccess_cases h with ⟨-, hs, -⟩ | ⟨hnone, -⟩ | ⟨r, d, rfl, rfl⟩ | ⟨r, d, rfl, -, -, rfl⟩ | ⟨d, i, rfl, -, -, hi⟩
    | ⟨d, e, rfl, -, -, rfl⟩
  · exact absurd hs (by simp [hf])
  · exact absurd hnone hb
  · cases hc : readCause r s with
    | none => simp [readRegister, hc, hf] at ht
    | some c =>
      have hne : c ≠ .badReg := fun h => readCause_ne_badReg r s (h ▸ hc)
      simpa [readRegister, hc, raise_eq_faulted hf] using causeCode_ne_twelve hne
  · cases hc : writeCause r s with
    | none => simp [writeRegister, hc, hf] at ht
    | some c =>
      have hne : c ≠ .badReg := fun h => writeCause_ne_badReg r s (h ▸ hc)
      simpa [writeRegister, hc, raise_eq_faulted hf] using causeCode_ne_twelve hne
  · obtain ⟨c, hc, rfl⟩ := exec_raised hf hi ht
    exact causeCode_ne_twelve (commandCause_ne hc).2
  · rw [raise_eq_faulted hf]
    exact causeCode_ne_twelve (c := .illegalCmd) (by decide)

/-- Settles O16: the three ways to be malformed are those that admission turns away, and what is admitted never raises the
cause. -/
theorem malformedAccessRaisesBadReg : Obligations.MalformedAccessRaisesBadReg := by
  intro s b rest h hf
  refine ⟨fun hbad => ?_, fun hw ho t ht => ?_⟩
  · have hnone : admittedRegister b = none :=
      admittedRegister_eq_none (hbad.imp_right (Or.imp_right fun ho r hr => ho (mem_mappedOffsets_iff.mpr ⟨r, hr⟩)))
    have hstep : step s = .next (badAccess b.kind { s with pending := rest }) :=
      (step_access h).trans (busAccess_bad (.inl hf) hnone)
    have hraise : raise .badReg { s with pending := rest } = faulted 12#4 { s with pending := rest } := raise_eq_faulted hf
    refine ⟨fun hk => ?_, fun hk => ?_⟩
    · rw [hstep, hk, badAccess, hraise]
      rfl
    · rw [hstep, hk, badAccess, hraise]
      rfl
  · obtain ⟨r, hr⟩ := mem_mappedOffsets_iff.mp ho
    have hadmitted : admittedRegister b = some r := by
      obtain ⟨k, o, w, d⟩ := b
      subst hw hr
      exact admittedRegister_offsetOf k r d
    exact busAccess_cause_ne_badReg (s := { s with pending := rest }) hf (by simp [hadmitted])
      ((step_access h).symm.trans ht)

/-! ### The faulted machine (R241) -/

/-- While a fault is latched no register access touches it: a read raises in vain, and a write is ignored. -/
theorem busAccess_keeps_fault {b : BusAccess} {s t : State} (hf : s.fault = true) (h : busAccess b s = .next t) :
    t.fault = true ∧ t.cause = s.cause := by
  rcases busAccess_cases h with ⟨-, -, rfl⟩ | ⟨-, hk, rfl⟩ | ⟨r, d, rfl, rfl⟩ | ⟨r, d, -, hs, -⟩ | ⟨d, i, -, hs, -⟩
    | ⟨d, e, -, hs, -⟩
  · exact ⟨hf, rfl⟩
  · have hk : b.kind = .rd := hk.resolve_left (by simp [hf])
    simp [hk, badAccess, raise_of_fault hf, hf]
  · cases hc : readCause r s <;> simp [readRegister, hc, raise_of_fault hf, hf]
  all_goals simp [hf] at hs

/-- Nothing but `RST` ends a fault or replaces its cause. -/
theorem step_keeps_fault {s t : State} (hrst : s.pending.head? ≠ some .rst) (hf : s.fault = true)
    (h : step s = .next t) : t.fault = true ∧ t.cause = s.cause := by
  rcases step_cases h with ⟨-, rfl⟩ | ⟨b, rest, -, hb⟩ | ⟨a, v, rest, -, -, rfl⟩ | ⟨a, rest, -, -, rfl⟩ | ⟨rest, hp, -⟩
  · exact ⟨hf, rfl⟩
  · exact busAccess_keeps_fault (s := { s with pending := rest }) hf hb
  · exact ⟨hf, rfl⟩
  · exact ⟨hf, rfl⟩
  · exact absurd (by rw [hp]; rfl) hrst

/-- Settles O4: a raise while faulted does nothing, so of a read that faults only the 0 it returns is left. -/
theorem faultedMachineIgnoresWritesAndAnswersReads : Obligations.FaultedMachineIgnoresWritesAndAnswersReads := by
  refine ⟨fun s b rest h hf => ⟨fun hk => step_write_faulted h hk hf, fun hk hbad => ?_, fun r hk hw ho => ?_⟩,
    fun s t hrst hf h => step_keeps_fault hrst hf h⟩
  · rw [step_access h, busAccess_bad (.inr hk) (admittedRegister_eq_none hbad), hk, badAccess,
      raise_of_fault (s := { s with pending := rest }) hf]
    rfl
  · obtain ⟨k, o, w, d⟩ := b
    subst hk hw
    by_cases hc : r ∈ [Reg.result0, .result1, .result2, .result3] ∧ s.phase ≠ .final
    · rw [step_read_raise h r ho ((readCause_eq r s).trans (if_pos hc)), if_pos hc,
        raise_of_fault (s := { s with pending := rest }) hf]
      rfl
    · rw [step_read h r ho ((readCause_eq r s).trans (if_neg hc)), if_neg hc]

/-! ### The write of `CMD` (R250) -/

/-- Settles O10: the write of `CMD` decodes its word, and a command that faults has done nothing else. -/
theorem stepRunsTheDecodedCommand : Obligations.StepRunsTheDecodedCommand := by
  intro s w rest h hf
  have hstep : step s = writeCmd w { s with pending := rest } := (step_access h).trans (busAccess_cmd hf)
  have hok (i : Instr) (hd : decode w = .ok i) : step s = exec i { s with pending := rest } := by
    rw [hstep, writeCmd, hd]
  refine ⟨hok, fun e hd => ?_, fun i t hd ht hft => ?_⟩
  · rw [hstep, writeCmd, hd]
    exact congrArg Host.Outcome.next (raise_eq_faulted hf)
  · obtain ⟨c, -, rfl⟩ := exec_raised (s := { s with pending := rest }) hf ((hok i hd).symm.trans ht) hft
    rfl

end Sys2Proof.Machine
end

section
/-! PROOFS about the writes of `CTRL`, `ADDR`, `LEN` and the seeds (46_register_access.md R242, R243): what they store, and that
`CTRL` and the seeds reach no command but START and HASH (10_state.md R22, R23). -/

namespace Sys2Proof.Machine

/-! ### Commands that do not start a computation -/

/-- A state with the registers START reads, `CTRL` and the seeds, taken from another one. -/
def withStartRegisters (o s : State) : State :=
  { s with
    ctrl := o.ctrl
    seed1Lo := o.seed1Lo
    seed1Hi := o.seed1Hi
    seed2Lo := o.seed2Lo
    seed2Hi := o.seed2Hi
    seed3 := o.seed3
    seed4 := o.seed4 }

/-- No command writes `CTRL` or a seed. -/
theorem exec_keeps_startRegisters {i : Instr} {s t : State} (h : exec i s = .next t) : withStartRegisters s t = t := by
  rcases exec_cases h with ⟨-, rfl⟩ | ⟨-, c, -, rfl⟩ | ⟨-, -, rfl⟩
  · rfl
  · rfl
  · have k := effectOf_host i s
    rw [withStartRegisters, ← k.ctrl, ← k.seed1Lo, ← k.seed1Hi, ← k.seed2Lo, ← k.seed2Hi, ← k.seed3, ← k.seed4]

/-- Where `CTRL` agrees, only the seeds are taken. -/
theorem withStartRegisters_of_ctrl {o s : State} (h : s.ctrl = o.ctrl) :
    withStartRegisters o s = { s with
      seed1Lo := o.seed1Lo, seed1Hi := o.seed1Hi, seed2Lo := o.seed2Lo, seed2Hi := o.seed2Hi, seed3 := o.seed3
      seed4 := o.seed4 } := by
  rw [withStartRegisters, ← h]

theorem absorbWhole_withStartRegisters (o s : State) (data : List Byte) :
    absorbWhole data (withStartRegisters o s) = withStartRegisters o (absorbWhole data s) := by
  simp only [absorbWhole, submitBlocks_eq]
  rfl

/-- PUT of a chunk too short to complete a block: it is buffered (44_stream_commands.md R182). -/
theorem absorb_of_lt {data : List Byte} {s : State} (h : s.count.toNat + data.length < blockBytes s.avar) :
    absorb data s = { s with
      buf := bufWrite s.buf s.count.toNat data, count := BitVec.ofNat 4 (s.count.toNat + data.length) } := by
  simp only [absorb, if_pos h]

/-- PUT of a chunk that completes the block begun in the buffer (R182). -/
theorem absorb_of_fill {data : List Byte} {s : State} (h : ¬s.count.toNat + data.length < blockBytes s.avar)
    (hc : s.count.toNat ≠ 0) {buf : Vector Byte 16}
    (hbuf : buf = bufWrite s.buf s.count.toNat (data.take (blockBytes s.avar - s.count.toNat))) :
    absorb data s = absorbWhole (data.drop (blockBytes s.avar - s.count.toNat))
      (submitBlock (bufRead buf (blockBytes s.avar)) { s with buf := buf }) := by
  simp only [absorb, if_neg h, if_pos hc, hbuf]

/-- PUT of a chunk of at least a block with the buffer empty (R182). -/
theorem absorb_of_empty {data : List Byte} {s : State} (h : ¬s.count.toNat + data.length < blockBytes s.avar)
    (hc : ¬s.count.toNat ≠ 0) : absorb data s = absorbWhole data s := by
  simp only [absorb, if_neg h, if_neg hc]

theorem absorb_withStartRegisters (o s : State) (data : List Byte) :
    absorb data (withStartRegisters o s) = withStartRegisters o (absorb data s) := by
  by_cases h : s.count.toNat + data.length < blockBytes s.avar
  · rw [absorb_of_lt h, absorb_of_lt (s := withStartRegisters o s) h]
    rfl
  · by_cases hc : s.count.toNat ≠ 0
    · rw [absorb_of_fill h hc rfl, absorb_of_fill (s := withStartRegisters o s) h hc rfl,
        ← absorbWhole_withStartRegisters]
      rfl
    · rw [absorb_of_empty h hc, absorb_of_empty (s := withStartRegisters o s) h hc, absorbWhole_withStartRegisters]

theorem effectOf_withStartRegisters (o s : State) {i : Instr} (hs : i ≠ .start) (hh : i ≠ .hash) :
    effectOf i (withStartRegisters o s) = withStartRegisters o (effectOf i s) := by
  cases i with
  | start => exact absurd rfl hs
  | hash => exact absurd rfl hh
  | put => exact absorb_withStartRegisters o s _
  | finish =>
    simp only [effectOf, finishBody_eq]
    rfl
  | blkPut | blkPutn | blkRem | blkFin | get => rfl

theorem commandCause_withStartRegisters (o s : State) {i : Instr} (hs : i ≠ .start) (hh : i ≠ .hash) :
    commandCause i (withStartRegisters o s) = commandCause i s := by
  cases i with
  | start => exact absurd rfl hs
  | hash => exact absurd rfl hh
  | put | finish | blkPut | blkPutn | blkRem | blkFin | get => rfl

/-- Every command but START and HASH does the same whatever `CTRL` and the seeds hold (10_state.md R22, R23). -/
theorem exec_withStartRegisters (o : State) {i : Instr} {s t : State} (hs : i ≠ .start) (hh : i ≠ .hash)
    (h : exec i s = .next t) : exec i (withStartRegisters o s) = .next (withStartRegisters o t) := by
  have hcause := commandCause_withStartRegisters o s hs hh
  rcases exec_cases h with ⟨hf, rfl⟩ | ⟨hf, c, hc, rfl⟩ | ⟨hf, hnone, rfl⟩
  · exact exec_faulted hf
  · exact exec_of_cause (s := withStartRegisters o s) hf (hcause.trans hc)
  · rw [exec_of_pass (s := withStartRegisters o s) hf (hcause.trans hnone), effectOf_withStartRegisters o s hs hh]

/-! ### The write of `CTRL` (R242) -/

/-- Settles O13: the write stores the two bits, the read returns them, and only START and HASH look at them. -/
theorem writeCtrlKeepsTwoBits : Obligations.WriteCtrlKeepsTwoBits := by
  intro s d rest h hf
  refine ⟨step_write h hf .ctrl rfl nofun rfl, fun x rest' hrest => step_read hrest .ctrl rfl rfl,
    fun i u hs hh hu => ?_⟩
  have hexec := exec_withStartRegisters { s with ctrl := d.extractLsb' 0 2 } hs hh hu
  rw [← exec_keeps_startRegisters hu]
  exact hexec

/-! ### The writes of `ADDR`, `LEN` and the seeds (R243) -/

/-- The seed registers (10_state.md R23). -/
def seedRegisters : List Reg := [.seed1Lo, .seed1Hi, .seed2Lo, .seed2Hi, .seed3, .seed4]

/-- The registers of R243: `ADDR`, `LEN` and the seeds. -/
def plainRegisters : List Reg := .addr :: .len :: seedRegisters

/-- A store leaves the host's side of the machine alone. -/
theorem storeRegister_host (r : Reg) (d : Word) (s : State) :
    (storeRegister r d s).pending = s.pending ∧ (storeRegister r d s).replies = s.replies := by
  cases r <;> exact ⟨rfl, rfl⟩

/-- `ADDR`, `LEN` and the seeds take a write in every phase, keep all its 32 bits, and return them in every phase. -/
theorem register_holds_write {r : Reg} (hr : r ∈ plainRegisters) :
    r ≠ .cmd ∧ (∀ s, writeCause r s = none) ∧ (∀ s, readCause r s = none)
      ∧ ∀ d s, registerValue r (storeRegister r d s) = d := by
  simp only [plainRegisters, seedRegisters, List.mem_cons, List.not_mem_nil, or_false] at hr
  rcases hr with rfl | rfl | rfl | rfl | rfl | rfl | rfl | rfl <;>
    exact ⟨nofun, fun _ => rfl, fun _ => rfl, fun _ _ => rfl⟩

/-- The store of a seed is undone by taking the registers of START from the state before it. -/
theorem withStartRegisters_storeRegister {r : Reg} (hr : r ∈ seedRegisters)
    (d : Word) (s : State) : withStartRegisters s (storeRegister r d s) = s ∧ (storeRegister r d s).ctrl = s.ctrl := by
  simp only [seedRegisters, List.mem_cons, List.not_mem_nil, or_false] at hr
  rcases hr with rfl | rfl | rfl | rfl | rfl | rfl <;> exact ⟨rfl, rfl⟩

/-- After a seed's write every command but START and HASH does what it would have done without it. -/
theorem exec_of_exec_storeSeed {i : Instr} {r : Reg} {d : Word} {s u : State}
    (hr : r ∈ seedRegisters) (hs : i ≠ .start) (hh : i ≠ .hash)
    (hu : exec i (storeRegister r d s) = .next u) :
    exec i s = .next { u with
      seed1Lo := s.seed1Lo, seed1Hi := s.seed1Hi, seed2Lo := s.seed2Lo, seed2Hi := s.seed2Hi, seed3 := s.seed3
      seed4 := s.seed4 } := by
  obtain ⟨hundo, hctrl⟩ := withStartRegisters_storeRegister hr d s
  have huctrl : u.ctrl = s.ctrl := (congrArg State.ctrl (exec_keeps_startRegisters hu)).symm.trans hctrl
  have hexec := exec_withStartRegisters s hs hh hu
  rwa [hundo, withStartRegisters_of_ctrl huctrl] at hexec

/-- A read that follows the write of such a register returns what was written. -/
theorem step_write_then_read {s : State} {o : BitVec 8} {d x : Word} {rest : List HostAction}
    (h : s.pending = .access ⟨.wr, o, 4, d⟩ :: .access ⟨.rd, o, 4, x⟩ :: rest) (hf : s.fault = false) (r : Reg)
    (ho : o = offsetOf r) (hr : r ∈ plainRegisters) :
    ∃ t u, step s = .next t ∧ step t = .next u ∧ u.replies = .word d :: s.replies := by
  obtain ⟨hcmd, hw, hrd, hvalue⟩ := register_holds_write hr
  obtain ⟨hpending, hreplies⟩ := storeRegister_host r d { s with pending := .access ⟨.rd, o, 4, x⟩ :: rest }
  refine ⟨_, _, step_write h hf r ho hcmd (hw s), step_read hpending r ho (hrd _), ?_⟩
  rw [hvalue, hreplies]

/-- Settles O14: the eight writes are plain stores, the read returns the word, and a seed reaches no command but START and
HASH. -/
theorem writeOperandAndSeedRegisters : Obligations.WriteOperandAndSeedRegisters := by
  intro s o d rest h hf
  refine ⟨fun ho => step_write h hf .addr ho nofun rfl, fun ho => step_write h hf .len ho nofun rfl,
    fun ho => step_write h hf .seed1Lo ho nofun rfl, fun ho => step_write h hf .seed1Hi ho nofun rfl,
    fun ho => step_write h hf .seed2Lo ho nofun rfl, fun ho => step_write h hf .seed2Hi ho nofun rfl,
    fun ho => step_write h hf .seed3 ho nofun rfl, fun ho => step_write h hf .seed4 ho nofun rfl,
    fun ho x rest' hrest => ?_, fun ho i t u hs hh ht hu => ?_⟩
  · obtain ⟨r, hr, hor⟩ := List.mem_map.mp (show o ∈ plainRegisters.map offsetOf from ho)
    exact step_write_then_read (hrest ▸ h) hf r hor.symm hr
  · obtain ⟨r, hr, hor⟩ := List.mem_map.mp (show o ∈ seedRegisters.map offsetOf from ho)
    obtain ⟨hcmd, hw, -, -⟩ := register_holds_write (List.mem_cons_of_mem _ (List.mem_cons_of_mem _ hr))
    obtain rfl := Host.Outcome.next.inj ((step_write h hf r hor.symm hcmd (hw s)).symm.trans ht)
    exact exec_of_exec_storeSeed hr hs hh hu

end Sys2Proof.Machine
end

section
/-! PROOFS about the invariant (10_state.md section 3): the checks that each command has passed when it runs (60_exceptions.md
R274), and that every step keeps the clauses of `State.Inv`. -/

namespace Sys2Proof.Machine

/-! ### What a command that runs has found (60_exceptions.md R274, steps 3 to 6) -/

/-- The commands that feed the Block Hasher run in ABSORB alone. -/
theorem absorb_of_phaseCause {i : Instr} {p : Phase} (hi : i ∈ [Instr.put, .blkPut, .blkPutn, .blkRem])
    (h : phaseCause i p = none) : p = .absorb := by
  cases p <;> revert i <;> decide

/-- The commands that finalize run in ABSORB and TAIL alone. -/
theorem started_of_phaseCause {i : Instr} {p : Phase} (hi : i ∈ [Instr.finish, .blkFin]) (h : phaseCause i p = none) :
    p = .absorb ∨ p = .tail := by
  cases p <;> revert i <;> decide

/-- The block commands run with an empty buffer alone (45_block_commands.md R215). -/
theorem count_eq_zero_of_countCause {i : Instr} {s : State} (hi : i ∈ [Instr.blkPut, .blkPutn, .blkRem, .blkFin])
    (h : countCause i s = none) : s.count = 0#4 := by
  simp only [List.mem_cons, List.not_mem_nil, or_false] at hi
  rcases hi with rfl | rfl | rfl | rfl <;> simpa [countCause] using h

/-- START and HASH run with a legal `CTRL.VARIANT` alone (44_stream_commands.md R180). -/
theorem exists_variantCode_of_operandCause {i : Instr} {s : State} (hi : i ∈ [Instr.start, .hash])
    (h : operandCause i s = none) : ∃ v, s.ctrl = variantCode v := by
  refine exists_variantCode_of_ne fun h3 => ?_
  have hnone : (variantOfCode s.ctrl).isNone := by rw [variantOfCode_eq_none.mpr h3, Option.isNone_none]
  simp only [List.mem_cons, List.not_mem_nil, or_false] at hi
  rcases hi with rfl | rfl <;> simp [operandCause, hnone] at h

/-! ### The operations of a command keep the invariant -/

/-- In ABSORB the invariant speaks of `SIZE` no more, and of the lanes only by their shape (R30). -/
theorem State.Inv.with_lanes {s : State} (h : s.Inv) (hp : s.phase = .absorb) {l : Lanes} (hl : lanesLegal s.avar l)
    (z : DWord) : State.Inv { s with lanes := l, size := z } :=
  { h with lanesShape := hl, idleBlank := fun hi => nomatch hp.symm.trans hi }

/-- With an empty buffer a computation that has been started may be in any other phase. -/
theorem State.Inv.with_phase {s : State} (h : s.Inv) (hc : s.count = 0#4) {p : Phase} (hp : p ≠ .idle) :
    State.Inv { s with phase := p } :=
  { h with countZero := fun _ => hc, idleBlank := fun hi => absurd hi hp }

/-- GET's write stays inside the memory and keeps it canonical (45_block_commands.md R214). -/
theorem State.Inv.with_memWrite {s : State} (h : s.Inv) {a : Nat} {bytes : List Byte}
    (hn : a + bytes.length ≤ memSize s) : State.Inv { s with mem := memWrite s.mem a bytes } :=
  { h with
    memCanonical := memWrite_wf h.memCanonical a bytes
    memInside := fun c hc => by
      rcases mem_memWrite hc with ⟨-, hlt⟩ | hc
      · exact lt_of_lt_of_le hlt hn
      · exact h.memInside c hc }

/-- The effect of a command whose checks have passed keeps the invariant. -/
theorem State.Inv.effectOf {i : Instr} {s : State} (h : s.Inv) (hc : commandCause i s = none) : (effectOf i s).Inv := by
  obtain ⟨hphase, hcount, hoperand, hrange⟩ := commandCause_eq_none.mp hc
  cases i with
  | start =>
    obtain ⟨v, hv⟩ := exists_variantCode_of_operandCause (by decide) hoperand
    rw [Machine.effectOf, startBody_of_variantCode hv]
    exact h.startWith v
  | put => exact h.absorb (absorb_of_phaseCause (by decide) hphase) _
  | finish => exact h.finishBody
  | hash =>
    obtain ⟨v, hv⟩ := exists_variantCode_of_operandCause (by decide) hoperand
    rw [Machine.effectOf, hashBody, startBody_of_variantCode hv]
    exact ((h.startWith v).absorb rfl _).finishBody
  | blkPut =>
    exact h.with_lanes (absorb_of_phaseCause (by decide) hphase) (blockStep_lanesLegal h.lanesShape _) s.size
  | blkPutn =>
    exact h.with_lanes (absorb_of_phaseCause (by decide) hphase) (blockSteps_lanesLegal h.lanesShape _ _) _
  | blkRem =>
    have hl := h.with_lanes (absorb_of_phaseCause (by decide) hphase)
      (remainder_lanesLegal h.lanesShape (operandBytes .blkRem s)) (s.size + s.len.setWidth 64)
    exact hl.with_phase (count_eq_zero_of_countCause (i := .blkRem) (by decide) hcount) nofun
  | blkFin =>
    have hzero : s.count = 0#4 := count_eq_zero_of_countCause (by decide) hcount
    rw [Machine.effectOf, ← finishBody_of_count_eq_zero hzero]
    exact h.finishBody
  | get =>
    have hpos : 0 < resultBytes s.avar := resultBytes_eq_blockBytes s.avar ▸ blockBytes_pos s.avar
    have hn := (rangeCause_eq_none.mp hrange).resolve_left hpos.ne'
    exact h.with_memWrite (by rwa [result_length])

/-- No command breaks the invariant, whether it runs, raises or is ignored. -/
theorem State.Inv.exec {i : Instr} {s t : State} (h : s.Inv) (ht : exec i s = .next t) : t.Inv := by
  rcases exec_cases ht with ⟨-, rfl⟩ | ⟨hf, c, -, rfl⟩ | ⟨-, hc, rfl⟩
  · exact h
  · exact raise_eq_faulted hf ▸ h.raise c
  · exact h.effectOf hc

/-! ### The host's actions keep the invariant -/

/-- The invariant does not speak of the host's waiting actions. -/
theorem State.Inv.with_pending {s : State} (h : s.Inv) (rest : List HostAction) : State.Inv { s with pending := rest } :=
  { h with }

theorem State.Inv.readRegister {s : State} (h : s.Inv) (r : Reg) : (readRegister r s).Inv := by
  unfold Machine.readRegister
  split
  · exact (h.raise _).reply _
  · exact h.reply _

/-- A half of `SIZE` is stored only when a computation has been started (46_register_access.md R246). -/
theorem State.Inv.with_size {s : State} (h : s.Inv) (hp : s.phase ≠ .idle) (z : DWord) :
    State.Inv { s with size := z } :=
  { h with idleBlank := fun hi => absurd hi hp }

theorem phase_ne_idle_of_writeCause {r : Reg} {s : State} (hr : r = .sizeLo ∨ r = .sizeHi)
    (hw : writeCause r s = none) : s.phase ≠ .idle :=
  fun hp => nomatch hw.symm.trans (writeCause_size_idle hr hp)

theorem State.Inv.storeRegister {r : Reg} {s : State} (h : s.Inv) (hw : writeCause r s = none) (d : Word) :
    (storeRegister r d s).Inv := by
  cases r with
  | sizeLo => exact h.with_size (phase_ne_idle_of_writeCause (.inl rfl) hw) _
  | sizeHi => exact h.with_size (phase_ne_idle_of_writeCause (.inr rfl) hw) _
  | _ => exact { h with }

theorem State.Inv.writeRegister {s : State} (h : s.Inv) (r : Reg) (d : Word) : (writeRegister r d s).Inv := by
  unfold Machine.writeRegister
  split
  · exact h.raise _
  · next hw => exact h.storeRegister hw d

theorem State.Inv.badAccess {s : State} (h : s.Inv) (k : AccessKind) : (badAccess k s).Inv := by
  cases k with
  | rd => exact (h.raise _).reply _
  | wr => exact h.raise _

theorem State.Inv.busAccess {b : BusAccess} {s t : State} (h : s.Inv) (ht : busAccess b s = .next t) : t.Inv := by
  rcases busAccess_cases ht with ⟨-, -, rfl⟩ | ⟨-, -, rfl⟩ | ⟨r, d, -, rfl⟩ | ⟨r, d, -, -, -, rfl⟩ | ⟨d, i, -, -, -, hi⟩
    | ⟨d, e, -, -, -, rfl⟩
  · exact h
  · exact h.badAccess _
  · exact h.readRegister r
  · exact h.writeRegister r d
  · exact h.exec hi
  · exact h.raise _

/-- The host writes below `MEM_SIZE` only (20_memory.md R60). -/
theorem State.Inv.with_storeByte {s : State} (h : s.Inv) {a : Nat} (ha : a < memSize s) (v : Byte) :
    State.Inv { s with mem := storeByte s.mem a v } :=
  h.with_memWrite (bytes := [v]) ha

/-- At power-on and after `RST` everything but the memory is fixed (70_reset_and_hazards.md R300, R303). -/
theorem State.Inv.reset_with_memory {m : List Host.Cell} {last : Word} (hwf : Memory.wf m)
    (hin : ∀ c ∈ m, c.1 < last.toNat + 1) (pending : List HostAction) (replies : List Reply) :
    State.Inv { State.reset with mem := m, memLast := last, pending := pending, replies := replies } where
  memCanonical := hwf
  memInside := hin
  countBelowBlock := blockBytes_pos .x86_32
  countZero := fun _ => rfl
  lanesShape := lanesLegal_zero .x86_32
  causeLatched := rfl
  idleBlank := fun _ => ⟨rfl, rfl, rfl, rfl, rfl⟩

/-- Settles O52: the power-on memory lists nothing. -/
theorem invariantHoldsAtReset : Obligations.InvariantHoldsAtReset :=
  State.Inv.reset_with_memory reset_mem_wf nofun [] []

/-- Settles O53: whichever of the host's actions the step takes, its operation keeps the invariant. -/
theorem everyStepKeepsTheInvariant : Obligations.EveryStepKeepsTheInvariant := by
  intro s t h ht
  rcases step_cases ht with ⟨-, rfl⟩ | ⟨b, rest, -, hb⟩ | ⟨a, v, rest, -, ha, rfl⟩ | ⟨a, rest, -, -, rfl⟩ | ⟨rest, -, rfl⟩
  · exact h
  · exact (h.with_pending rest).busAccess hb
  · exact (h.with_storeByte ha v).with_pending rest
  · exact (h.with_pending rest).reply _
  · exact State.Inv.reset_with_memory h.memCanonical h.memInside rest s.replies

end Sys2Proof.Machine
end

section
/-! PROOFS about the dead bytes of the buffer (10_state.md R31, 93_implementation_defined.md U19): no step reads a byte of `BUF`
at or above `COUNT`; with the one way a step can stop (log 6). -/

namespace Sys2Proof.Machine

/-! ### The one way a step can stop (20_memory.md R60, log 6) -/

/-- The host's next action is an access of its own to the data-memory address `a`. -/
def HostTouches (s : State) (a : Word) : Prop :=
  s.pending.head? = some (.memRead a) ∨ ∃ v, s.pending.head? = some (.memWrite a v)

/-- A step stops when the host's own access goes to an address that does not exist. -/
theorem step_of_absent {s : State} {a : Word} (ha : memSize s ≤ a.toNat) (h : HostTouches s a) :
    step s = .fault .hostAddressAbsent := by
  have hout : ¬a.toNat < memSize s := Nat.not_lt.mpr ha
  rcases h with h | ⟨v, h⟩
  · obtain ⟨rest, h⟩ := List.head?_eq_some_iff.mp h
    exact (step_action h).trans (if_neg hout)
  · obtain ⟨rest, h⟩ := List.head?_eq_some_iff.mp h
    exact (step_action h).trans (if_neg hout)

/-- Every other step answers a next state (70_reset_and_hazards.md R309). -/
theorem step_next_or_absent (s : State) :
    (∃ t, step s = .next t) ∨ ∃ a, memSize s ≤ a.toNat ∧ HostTouches s a := by
  cases h : s.pending with
  | nil => exact .inl ⟨s, step_idle h⟩
  | cons x rest =>
    cases x with
    | access b => exact .inl (step_access h ▸ busAccess_next b _)
    | rst => exact .inl ⟨_, step_action h⟩
    | memRead a =>
      rcases Nat.lt_or_ge a.toNat (memSize s) with ha | ha
      · exact .inl ⟨_, (step_action h).trans (if_pos ha)⟩
      · exact .inr ⟨a, ha, .inl (by rw [h]; rfl)⟩
    | memWrite a v =>
      rcases Nat.lt_or_ge a.toNat (memSize s) with ha | ha
      · exact .inl ⟨_, (step_action h).trans (if_pos ha)⟩
      · exact .inr ⟨a, ha, .inr ⟨v, by rw [h]; rfl⟩⟩

/-- Settles O12: the command's outcome is always a next state, so only the host's own memory accesses are left to stop. -/
theorem stepStopsOnlyAtAbsentAddresses : Obligations.StepStopsOnlyAtAbsentAddresses := by
  refine ⟨fun s h => step_idle h, exec_next, fun s => (step_next_or_absent s).imp_right ?_⟩
  rintro ⟨a, ha, h⟩
  exact ⟨step_of_absent ha h, a, BitVec.lt_def.mpr ha, h⟩

/-! ### Two states that agree but in dead buffer bytes -/

section DeadBuffer

variable {s t : State}

/-- A state with another buffer. -/
def withBuf (buf : Vector Byte 16) (s : State) : State := { s with buf := buf }

/-- The second state is the first with another buffer, whose live bytes are the same. -/
theorem agreeButDeadBuffer_iff :
    AgreeButDeadBuffer s t ↔ ∃ buf, t = withBuf buf s ∧ bufRead buf s.count.toNat = bufRead s.buf s.count.toNat := by
  constructor
  · intro h
    have hcount : t.count = s.count := by rw [← h.rest]
    exact ⟨t.buf, h.rest.symm, by rw [h.live, hcount]⟩
  · rintro ⟨buf, rfl, hlive⟩
    exact ⟨rfl, hlive.symm⟩

theorem AgreeButDeadBuffer.refl (s : State) : AgreeButDeadBuffer s s := ⟨rfl, rfl⟩

/-- An operation that neither reads nor writes the buffer, and leaves `COUNT` alone. -/
structure IgnoresBuffer (f : State → State) : Prop where
  count : ∀ s, (f s).count = s.count
  buf : ∀ s, (f s).buf = s.buf
  commutes : ∀ s buf, f (withBuf buf s) = withBuf buf (f s)

theorem IgnoresBuffer.agree {f : State → State} (hf : IgnoresBuffer f) (h : AgreeButDeadBuffer s t) :
    AgreeButDeadBuffer (f s) (f t) := by
  obtain ⟨buf, rfl, hlive⟩ := agreeButDeadBuffer_iff.mp h
  exact agreeButDeadBuffer_iff.mpr ⟨buf, hf.commutes s buf, by rw [hf.count, hf.buf, hlive]⟩

theorem IgnoresBuffer.comp {f g : State → State} (hf : IgnoresBuffer f) (hg : IgnoresBuffer g) :
    IgnoresBuffer fun s => f (g s) where
  count := fun s => (hf.count _).trans (hg.count s)
  buf := fun s => (hf.buf _).trans (hg.buf s)
  commutes := fun s buf => by rw [hg.commutes, hf.commutes]

theorem ignoresBuffer_raise (c : Cause) : IgnoresBuffer (raise c) where
  count := raise_count c
  buf := raise_buf c
  commutes := fun s buf => by
    cases hf : s.fault with
    | true => rw [raise_of_fault hf, raise_of_fault (s := withBuf buf s) hf]
    | false => rw [raise_eq_faulted hf, raise_eq_faulted (s := withBuf buf s) hf]; rfl

theorem ignoresBuffer_reply (r : Reply) : IgnoresBuffer (reply r) := ⟨fun _ => rfl, fun _ => rfl, fun _ _ => rfl⟩

theorem ignoresBuffer_badAccess (k : AccessKind) : IgnoresBuffer (badAccess k) :=
  match k with
  | .rd => (ignoresBuffer_reply _).comp (ignoresBuffer_raise _)
  | .wr => ignoresBuffer_raise _

/-- No register shows a byte of the buffer (10_state.md section 2). -/
theorem ignoresBuffer_replyValue (r : Reg) : IgnoresBuffer fun s => reply (.word (registerValue r s)) s where
  count := fun _ => rfl
  buf := fun _ => rfl
  commutes := fun _ _ => by cases r <;> rfl

theorem ignoresBuffer_storeRegister (r : Reg) (d : Word) : IgnoresBuffer (storeRegister r d) := by
  cases r <;> exact ⟨fun _ => rfl, fun _ => rfl, fun _ _ => rfl⟩

theorem readCause_with_buf (r : Reg) (s : State) (buf : Vector Byte 16) :
    readCause r (withBuf buf s) = readCause r s := by cases r <;> rfl

theorem writeCause_with_buf (r : Reg) (s : State) (buf : Vector Byte 16) :
    writeCause r (withBuf buf s) = writeCause r s := by cases r <;> rfl

theorem AgreeButDeadBuffer.readRegister (h : AgreeButDeadBuffer s t) (r : Reg) :
    AgreeButDeadBuffer (readRegister r s) (readRegister r t) := by
  have hcause : readCause r t = readCause r s := by
    obtain ⟨buf, rfl, -⟩ := agreeButDeadBuffer_iff.mp h
    exact readCause_with_buf r s buf
  unfold Machine.readRegister
  rw [hcause]
  cases readCause r s with
  | some c => exact ((ignoresBuffer_reply _).comp (ignoresBuffer_raise c)).agree h
  | none => exact (ignoresBuffer_replyValue r).agree h

theorem AgreeButDeadBuffer.writeRegister (h : AgreeButDeadBuffer s t) (r : Reg) (d : Word) :
    AgreeButDeadBuffer (writeRegister r d s) (writeRegister r d t) := by
  have hcause : writeCause r t = writeCause r s := by
    obtain ⟨buf, rfl, -⟩ := agreeButDeadBuffer_iff.mp h
    exact writeCause_with_buf r s buf
  unfold Machine.writeRegister
  rw [hcause]
  cases writeCause r s with
  | some c => exact (ignoresBuffer_raise c).agree h
  | none => exact (ignoresBuffer_storeRegister r d).agree h

/-! ### The commands -/

/-- The live bytes and the chunk behind them are the same. -/
theorem AgreeButDeadBuffer.gathered_eq (h : AgreeButDeadBuffer s t) (data : List Byte) :
    gathered data t = gathered data s := by
  rw [gathered, gathered, h.live]

/-- `COUNT` after a PUT: the number of bytes left over (44_stream_commands.md R182). -/
theorem absorb_count_toNat (data : List Byte) (hc : s.count.toNat < blockBytes s.avar) :
    (absorb data s).count.toNat = (gathered data s).length % blockBytes s.avar := by
  have hlt := Nat.mod_lt (gathered data s).length (blockBytes_pos s.avar)
  have hle := blockBytes_le s.avar
  rw [(absorb_spec data s hc).1]
  exact Nat.mod_eq_of_lt (by omega)

/-- PUT reads the live bytes alone, and what it leaves live comes from them and the chunk. -/
theorem AgreeButDeadBuffer.absorb (h : AgreeButDeadBuffer s t) (hc : s.count.toNat < blockBytes s.avar)
    (data : List Byte) : AgreeButDeadBuffer (absorb data s) (absorb data t) := by
  obtain ⟨hs, hlive⟩ := absorb_spec data s hc
  have hcount := absorb_count_toNat data hc
  have hg := h.gathered_eq data
  obtain ⟨buf, rfl, -⟩ := agreeButDeadBuffer_iff.mp h
  obtain ⟨ht, hlive'⟩ := absorb_spec data (withBuf buf s) hc
  have hcount' := absorb_count_toNat (s := withBuf buf s) data hc
  rw [hg] at ht hlive' hcount'
  refine ⟨?_, ?_⟩
  · rw [hs, ht]
    rfl
  · rw [hcount, hcount']
    exact hlive.trans hlive'.symm

/-- FINISH reads the live bytes alone and empties the buffer (R183). -/
theorem AgreeButDeadBuffer.finishBody (h : AgreeButDeadBuffer s t) :
    AgreeButDeadBuffer (finishBody s) (finishBody t) := by
  have hlive := h.live
  obtain ⟨buf, rfl, -⟩ := agreeButDeadBuffer_iff.mp h
  rw [finishBody_eq, finishBody_eq]
  exact ⟨by rw [hlive]; rfl, rfl⟩

theorem commandCause_with_buf (i : Instr) (s : State) (buf : Vector Byte 16) :
    commandCause i (withBuf buf s) = commandCause i s := by cases i <;> rfl

/-- START and HASH begin by replacing the whole buffer (R180, R184). -/
theorem startBody_with_buf {v : Variant} (hv : s.ctrl = variantCode v) (buf : Vector Byte 16) :
    startBody (withBuf buf s) = startBody s := by
  rw [startBody_of_variantCode hv, startBody_of_variantCode (s := withBuf buf s) hv]
  rfl

/-- The effect of a command whose checks have passed keeps the agreement. -/
theorem AgreeButDeadBuffer.effectOf (h : AgreeButDeadBuffer s t) (hb : s.count.toNat < blockBytes s.avar) {i : Instr}
    (hc : commandCause i s = none) : AgreeButDeadBuffer (effectOf i s) (effectOf i t) := by
  obtain ⟨-, -, hoperand, -⟩ := commandCause_eq_none.mp hc
  obtain ⟨buf, rfl, -⟩ := agreeButDeadBuffer_iff.mp h
  cases i with
  | start =>
    obtain ⟨v, hv⟩ := exists_variantCode_of_operandCause (by decide) hoperand
    rw [Machine.effectOf, startBody_with_buf hv]
    exact .refl _
  | hash =>
    obtain ⟨v, hv⟩ := exists_variantCode_of_operandCause (by decide) hoperand
    rw [Machine.effectOf, hashBody, hashBody, startBody_with_buf hv]
    exact .refl _
  | put => exact h.absorb hb _
  | finish => exact h.finishBody
  | blkPut | blkPutn | blkRem | blkFin | get => exact ⟨rfl, h.live⟩

/-! ### The step -/

/-- A write of `CMD` whose word is legal runs its command (46_register_access.md R250). -/
theorem busAccess_cmd_ok {d : Word} {i : Instr} (hf : s.fault = false) (hd : decode d = .ok i) :
    busAccess ⟨.wr, offsetOf .cmd, 4, d⟩ s = exec i s := by
  rw [busAccess_cmd hf, writeCmd, hd]

/-- A write of `CMD` whose word is illegal raises `E_ILLEGAL_CMD` (R250). -/
theorem busAccess_cmd_error {d : Word} {e : IllegalWord} (hf : s.fault = false) (hd : decode d = .error e) :
    busAccess ⟨.wr, offsetOf .cmd, 4, d⟩ s = .next (raise .illegalCmd s) := by
  rw [busAccess_cmd hf, writeCmd, hd]

/-- An operation that answers a next state from `s` answers one that agrees with it from `t`. -/
def NextAgrees (f : State → Host.Outcome State Fault Refusal) (s t : State) : Prop :=
  ∀ s', f s = .next s' → ∃ t', f t = .next t' ∧ AgreeButDeadBuffer s' t'

theorem AgreeButDeadBuffer.exec (h : AgreeButDeadBuffer s t) (hb : s.count.toNat < blockBytes s.avar) (i : Instr) :
    NextAgrees (exec i) s t := by
  intro s' hs'
  obtain ⟨buf, rfl, -⟩ := agreeButDeadBuffer_iff.mp h
  have hcause := commandCause_with_buf i s buf
  rcases exec_cases hs' with ⟨hf, rfl⟩ | ⟨hf, c, hc, rfl⟩ | ⟨hf, hc, rfl⟩
  · exact ⟨_, exec_faulted hf, h⟩
  · exact ⟨_, exec_of_cause hf (hcause.trans hc), rfl, h.live⟩
  · exact ⟨_, exec_of_pass hf (hcause.trans hc), h.effectOf hb hc⟩

theorem AgreeButDeadBuffer.busAccess (h : AgreeButDeadBuffer s t) (hb : s.count.toNat < blockBytes s.avar)
    (b : BusAccess) : NextAgrees (busAccess b) s t := by
  intro s' hs'
  have hfault : t.fault = s.fault := by rw [← h.rest]
  rcases busAccess_cases hs' with ⟨hk, hf, rfl⟩ | ⟨hr, hf, rfl⟩ | ⟨r, d, rfl, rfl⟩ | ⟨r, d, rfl, hf, hr, rfl⟩
    | ⟨d, i, rfl, hf, hd, hi⟩ | ⟨d, e, rfl, hf, hd, rfl⟩
  · exact ⟨t, busAccess_write_faulted hk (hfault.trans hf), h⟩
  · exact ⟨_, busAccess_bad (hfault ▸ hf) hr, (ignoresBuffer_badAccess _).agree h⟩
  · exact ⟨_, busAccess_read r d t, h.readRegister r⟩
  · exact ⟨_, busAccess_write (hfault.trans hf) hr, h.writeRegister r d⟩
  · obtain ⟨t', ht', hagree⟩ := h.exec hb i s' hi
    exact ⟨t', (busAccess_cmd_ok (hfault.trans hf) hd).trans ht', hagree⟩
  · exact ⟨_, busAccess_cmd_error (hfault.trans hf) hd, (ignoresBuffer_raise _).agree h⟩

/-- A step that answers a next state answers one that agrees with it. -/
theorem AgreeButDeadBuffer.step (h : AgreeButDeadBuffer s t) (hb : s.count.toNat < blockBytes s.avar) :
    NextAgrees step s t := by
  intro s' hs'
  obtain ⟨buf, rfl, -⟩ := agreeButDeadBuffer_iff.mp h
  rcases step_cases hs' with ⟨hp, rfl⟩ | ⟨b, rest, hp, hacc⟩ | ⟨a, v, rest, hp, ha, rfl⟩ | ⟨a, rest, hp, ha, rfl⟩
    | ⟨rest, hp, rfl⟩
  · exact ⟨_, step_idle (s := withBuf buf s') hp, h⟩
  · have hrest : AgreeButDeadBuffer { s with pending := rest } { withBuf buf s with pending := rest } := ⟨rfl, h.live⟩
    obtain ⟨t', ht', hagree⟩ := AgreeButDeadBuffer.busAccess hrest hb b s' hacc
    exact ⟨t', (step_access (s := withBuf buf s) hp).trans ht', hagree⟩
  · exact ⟨_, (step_action (s := withBuf buf s) hp).trans (if_pos ha), rfl, h.live⟩
  · exact ⟨_, (step_action (s := withBuf buf s) hp).trans (if_pos ha), rfl, h.live⟩
  · exact ⟨_, step_action (s := withBuf buf s) hp, .refl _⟩

end DeadBuffer

/-- Settles O54: a step's operation reads only the live bytes, and it stops at the same host accesses. -/
theorem deadBufferBytesAreNeverObserved : Obligations.DeadBufferBytesAreNeverObserved := by
  intro s t h hb
  refine ⟨h.step hb, fun f hf => ?_⟩
  obtain ⟨s', hs'⟩ | ⟨a, ha, htouch⟩ := step_next_or_absent s
  · exact nomatch hs'.symm.trans hf
  · obtain rfl := Host.Outcome.fault.inj ((step_of_absent ha htouch).symm.trans hf)
    obtain ⟨buf, rfl, -⟩ := agreeButDeadBuffer_iff.mp h
    exact step_of_absent ha htouch

end Sys2Proof.Machine
end

section
/-! PROOFS about the step: reset and the faulted state (70_reset_and_hazards.md R300 to R303, 60_exceptions.md R271 to R278), what
a register access that raises leaves alone (R273), and which steps write the data memory (10_state.md R37) or move the phase
(R28). -/

namespace Sys2Proof.Machine

/-! ### Reset (R300, R303) -/

/-- Settles O1: each field of the power-on state is a literal. -/
theorem powerOnResetIsAllZero : Obligations.PowerOnResetIsAllZero :=
  ⟨rfl, rfl, rfl, rfl, rfl, rfl, rfl, rfl, rfl, rfl, rfl, rfl, rfl, rfl, rfl, rfl, rfl⟩

theorem step_rst {s : State} {rest : List HostAction} (h : s.pending = .rst :: rest) :
    step s = .next (applyReset { s with pending := rest }) := step_action h

/-- Settles O2: `RST` is `applyReset`, and no other action ends a fault. -/
theorem resetKeepsMemoryAndAloneEndsAFault : Obligations.ResetKeepsMemoryAndAloneEndsAFault :=
  ⟨fun _ _ h => ⟨_, step_rst h, rfl, rfl, rfl, rfl, rfl, rfl, rfl, rfl, rfl, rfl, rfl, rfl, rfl, rfl, rfl, rfl, rfl,
      fun _ => rfl, rfl, rfl, rfl⟩,
    fun _ _ hrst hf h => step_keeps_fault hrst hf h⟩

/-- Right after reset every register holds 0 (R301). -/
theorem registerValue_applyReset (r : Reg) (s : State) : registerValue r (applyReset s) = 0#32 := by
  cases r with
  | status =>
    exact (statusWord_eq (s := applyReset s) (p := 0#32) (v := 0#32) (f := 0#32) rfl rfl rfl).trans
      (by rw [applyReset_cause]; decide)
  | sizeHi => exact (by decide : hi32 0#64 = 0#32)
  | _ => rfl

/-- The first read after reset returns 0; that of a result register raises too, for nothing has been finalized (R301). -/
theorem step_read_applyReset {s : State} {r : Reg} {x : Word} {rest : List HostAction}
    (h : s.pending = .access ⟨.rd, offsetOf r, 4, x⟩ :: rest) :
    (r ∉ [Reg.result0, .result1, .result2, .result3] →
      step (applyReset s) = .next { applyReset s with pending := rest, replies := .word 0#32 :: s.replies })
    ∧ (r ∈ [Reg.result0, .result1, .result2, .result3] →
      step (applyReset s) = .next { faulted 8#4 (applyReset s) with pending := rest, replies := .word 0#32 :: s.replies }) := by
  have hcause := readCause_eq r (applyReset s)
  refine ⟨fun hr => ?_, fun hr => ?_⟩
  · rw [step_read (s := applyReset s) h r rfl (hcause.trans (if_neg fun hc => hr hc.1)), registerValue_applyReset]
    rfl
  · rw [step_read_raise (s := applyReset s) h r rfl (hcause.trans (if_pos ⟨hr, nofun⟩))]
    rfl

/-- Settles O3: the read that follows finds the reset state, and the power-on state is one. -/
theorem registersReadZeroAfterReset : Obligations.RegistersReadZeroAfterReset := by
  refine ⟨fun s r x rest h => ?_, fun r x rest =>
    step_read_applyReset (s := { State.reset with pending := .access ⟨.rd, offsetOf r, 4, x⟩ :: rest }) rfl⟩
  obtain ⟨hplain, hresult⟩ := step_read_applyReset
    (s := { s with pending := .access ⟨.rd, offsetOf r, 4, x⟩ :: rest }) rfl
  by_cases hr : r ∈ [Reg.result0, .result1, .result2, .result3]
  · exact ⟨_, _, step_rst h, hresult hr, fun hn => absurd hr hn, fun _ => rfl⟩
  · exact ⟨_, _, step_rst h, hplain hr, fun _ => rfl, fun hn => absurd hn hr⟩

/-! ### Raising (60_exceptions.md R271, R273) -/

/-- Settles O5: the first cause is latched with its code, and a later one is not recorded. -/
theorem raiseLatchesTheFirstCauseOnly : Obligations.RaiseLatchesTheFirstCauseOnly :=
  fun c _ => ⟨fun hf => by cases c <;> exact raise_eq_faulted hf, raise_of_fault⟩

theorem readRegister_of_cause {r : Reg} {s : State} {c : Cause} (h : readCause r s = some c) :
    readRegister r s = reply (.word 0#32) (raise c s) := by
  rw [readRegister, h]

theorem readRegister_of_pass {r : Reg} {s : State} (h : readCause r s = none) :
    readRegister r s = reply (.word (registerValue r s)) s := by
  rw [readRegister, h]

theorem writeRegister_of_cause {r : Reg} {d : Word} {s : State} {c : Cause} (h : writeCause r s = some c) :
    writeRegister r d s = raise c s := by
  rw [writeRegister, h]

theorem writeRegister_of_pass {r : Reg} {d : Word} {s : State} (h : writeCause r s = none) :
    writeRegister r d s = storeRegister r d s := by
  rw [writeRegister, h]

/-- The state after an access that has raised: the fault, and 0 handed back if it was a read (R241). -/
def afterRaise (k : AccessKind) (c : Cause) (s : State) : State :=
  { faulted (causeCode c) s with replies := if k = .rd then .word 0#32 :: s.replies else s.replies }

/-- An access that raises has no other effect. -/
theorem busAccess_raised {b : BusAccess} {s t : State} (hf : s.fault = false) (h : busAccess b s = .next t)
    (ht : t.fault = true) : ∃ c, t = afterRaise b.kind c s := by
  rcases busAccess_cases h with ⟨-, hs, -⟩ | ⟨-, -, rfl⟩ | ⟨r, d, rfl, rfl⟩ | ⟨r, d, rfl, -, -, rfl⟩ | ⟨d, i, rfl, -, -, hi⟩
    | ⟨d, e, rfl, -, -, rfl⟩
  · exact nomatch hf.symm.trans hs
  · refine ⟨.badReg, ?_⟩
    cases b.kind <;> rw [badAccess, raise_eq_faulted hf] <;> rfl
  · cases hc : readCause r s with
    | none => simp [readRegister_of_pass hc, hf] at ht
    | some c => exact ⟨c, by rw [readRegister_of_cause hc, raise_eq_faulted hf]; rfl⟩
  · cases hc : writeCause r s with
    | none => simp [writeRegister_of_pass hc, hf] at ht
    | some c => exact ⟨c, by rw [writeRegister_of_cause hc, raise_eq_faulted hf]; rfl⟩
  · obtain ⟨c, -, rfl⟩ := exec_raised hf hi ht
    exact ⟨c, rfl⟩
  · exact ⟨.illegalCmd, raise_eq_faulted hf⟩

/-- Settles O6: the access that raised has latched the code of some cause. -/
theorem raisingAccessMakesNoOtherEffect : Obligations.RaisingAccessMakesNoOtherEffect := by
  intro s t b rest hp hf h ht
  obtain ⟨c, rfl⟩ := busAccess_raised (s := { s with pending := rest }) hf ((step_access hp).symm.trans h) ht
  obtain ⟨hne, hle⟩ := causeCode_range c
  exact ⟨hne, hle, rfl⟩

/-! ### What an access that runs no command leaves alone -/

theorem storeRegister_phase_mem (r : Reg) (d : Word) (s : State) :
    (storeRegister r d s).phase = s.phase ∧ (storeRegister r d s).mem = s.mem := by
  cases r <;> exact ⟨rfl, rfl⟩

/-- A register access moves the phase or writes the memory by running a command only (46_register_access.md R242 to R250). -/
theorem busAccess_command_or_frame {b : BusAccess} {s t : State} (h : busAccess b s = .next t) :
    (∃ d i, b = ⟨.wr, offsetOf .cmd, 4, d⟩ ∧ decode d = .ok i ∧ exec i s = .next t)
    ∨ (t.phase = s.phase ∧ t.mem = s.mem) := by
  rcases busAccess_cases h with ⟨-, -, rfl⟩ | ⟨-, -, rfl⟩ | ⟨r, d, -, rfl⟩ | ⟨r, d, -, -, -, rfl⟩ | ⟨d, i, hb, -, hd, hi⟩
    | ⟨d, e, -, -, -, rfl⟩
  · exact .inr ⟨rfl, rfl⟩
  · cases b.kind <;> exact .inr ⟨raise_phase _ s, raise_mem _ s⟩
  · right
    cases hc : readCause r s with
    | none => rw [readRegister_of_pass hc]; exact ⟨rfl, rfl⟩
    | some c => rw [readRegister_of_cause hc]; exact ⟨raise_phase c s, raise_mem c s⟩
  · right
    cases hc : writeCause r s with
    | none => rw [writeRegister_of_pass hc]; exact storeRegister_phase_mem r d s
    | some c => rw [writeRegister_of_cause hc]; exact ⟨raise_phase c s, raise_mem c s⟩
  · exact .inl ⟨d, i, hb, hd, hi⟩
  · exact .inr ⟨raise_phase _ s, raise_mem _ s⟩

/-! ### Who writes the data memory (10_state.md R37) -/

theorem exec_mem {i : Instr} {s t : State} (hi : i ≠ .get) (h : exec i s = .next t) : t.mem = s.mem := by
  rcases exec_cases h with ⟨-, rfl⟩ | ⟨-, c, -, rfl⟩ | ⟨-, -, rfl⟩
  · rfl
  · rfl
  · exact effectOf_mem hi s

/-- Settles O35: of the commands only GET writes, and GET's word is the one its encoder gives. -/
theorem onlyGetWritesTheDataMemory : Obligations.OnlyGetWritesTheDataMemory := by
  intro s t a rest hp hwrite hget h
  rcases step_cases h with ⟨-, rfl⟩ | ⟨b, rest', hb, hacc⟩ | ⟨x, v, rest', hx, -, -⟩ | ⟨x, rest', -, -, rfl⟩ | ⟨rest', -, rfl⟩
  · rfl
  · obtain ⟨rfl, rfl⟩ := List.cons.inj (hp.symm.trans hb)
    rcases busAccess_command_or_frame hacc with ⟨d, i, rfl, hd, hi⟩ | ⟨-, hmem⟩
    · have hne : i ≠ .get := by
        rintro rfl
        exact hget (by rw [decode_eq_ok_iff.mp hd]; rfl)
      exact exec_mem (s := { s with pending := rest }) hne hi
    · exact hmem
  · exact absurd (List.cons.inj (hp.symm.trans hx)).1 (hwrite x v)
  · rfl
  · rfl

/-! ### Who moves the phase (10_state.md R28) -/

/-- The transitions of the protocol: which command leads from which phase to which. -/
def ProtocolMove (i : Instr) (p q : Phase) : Prop :=
  (i = .start ∧ q = .absorb) ∨ (i = .hash ∧ q = .final) ∨ (i = .blkRem ∧ p = .absorb ∧ q = .tail)
    ∨ ((i = .finish ∨ i = .blkFin) ∧ (p = .absorb ∨ p = .tail) ∧ q = .final)

theorem effectOf_phase {i : Instr} {s : State} (hc : commandCause i s = none) :
    (effectOf i s).phase = s.phase ∨ ProtocolMove i s.phase (effectOf i s).phase := by
  obtain ⟨hphase, -, hoperand, -⟩ := commandCause_eq_none.mp hc
  cases i with
  | start =>
    obtain ⟨v, hv⟩ := exists_variantCode_of_operandCause (by decide) hoperand
    exact .inr (.inl ⟨rfl, by rw [effectOf, startBody_of_variantCode hv, startWith_phase]⟩)
  | hash => exact .inr (.inr (.inl ⟨rfl, rfl⟩))
  | blkRem => exact .inr (.inr (.inr (.inl ⟨rfl, absorb_of_phaseCause (i := .blkRem) (by decide) hphase, rfl⟩)))
  | finish => exact .inr (.inr (.inr (.inr ⟨.inl rfl, started_of_phaseCause (by decide) hphase, rfl⟩)))
  | blkFin => exact .inr (.inr (.inr (.inr ⟨.inr rfl, started_of_phaseCause (by decide) hphase, rfl⟩)))
  | put => exact .inl (absorb_keeps _ s).1
  | blkPut | blkPutn | get => exact .inl rfl

theorem exec_phase {i : Instr} {s t : State} (h : exec i s = .next t) :
    t.phase = s.phase ∨ ProtocolMove i s.phase t.phase := by
  rcases exec_cases h with ⟨-, rfl⟩ | ⟨-, c, -, rfl⟩ | ⟨-, hc, rfl⟩
  · exact .inl rfl
  · exact .inl rfl
  · exact effectOf_phase hc

/-- Settles O37: a step other than `RST` moves the phase by running a command only, and each command's move is the protocol's. -/
theorem phaseMovesOnlyAlongTheProtocol : Obligations.PhaseMovesOnlyAlongTheProtocol := by
  intro s t hrst h hne
  rcases step_cases h with ⟨-, rfl⟩ | ⟨b, rest, hp, hacc⟩ | ⟨x, v, rest, -, -, rfl⟩ | ⟨x, rest, -, -, rfl⟩ | ⟨rest, hp, -⟩
  · exact absurd rfl hne
  · rcases busAccess_command_or_frame hacc with ⟨d, i, rfl, hd, hi⟩ | ⟨hphase, -⟩
    · exact ⟨d, i, by rw [hp]; rfl, hd, (exec_phase hi).resolve_left hne⟩
    · exact absurd hphase hne
  · exact absurd rfl hne
  · exact absurd rfl hne
  · exact absurd (by rw [hp]; rfl) hrst

/-! ### A command word placed for the next step (log 1) -/

/-- Settles O11: the placed action is the write of `CMD` with the word, and the step takes it off again. -/
theorem placedCommandWordRunsNext : Obligations.PlacedCommandWordRunsNext := by
  intro s w i hf hd
  have hword : BitVec.ofNat 32 (w.toNat % 2 ^ 32) = w := by
    rw [Nat.mod_eq_of_lt w.isLt, BitVec.ofNat_toNat, BitVec.setWidth_eq]
  have hstep : step (s.withFetchWord 32 w.toNat) = busAccess (cmdAccess w) s := by
    rw [State.withFetchWord, hword]
    exact step_access rfl
  exact hstep.trans (busAccess_cmd_ok hf hd)

end Sys2Proof.Machine
end

section
/-! PROOFS about what the commands keep and what they look at: the host's registers (10_state.md R22 to R25), and the bytes at
`ADDR` (20_memory.md R65). -/

namespace Sys2Proof.Machine

/-! ### The host's registers (R22 to R25, 60_exceptions.md R272) -/

/-- Settles O33: the effects keep the host's side, a failing check touches the fault only, and a faulted machine runs nothing. -/
theorem commandsKeepTheHostRegisters : Obligations.CommandsKeepTheHostRegisters := by
  intro i s t h
  have hkeep : SameHostSide s t ∨ ∃ code, t = faulted code s := by
    rcases exec_cases h with ⟨-, rfl⟩ | ⟨-, c, -, rfl⟩ | ⟨-, -, rfl⟩
    · exact .inl (.refl t)
    · exact .inr ⟨_, rfl⟩
    · exact .inl (effectOf_host i s)
  have hidle (hf : s.fault = true) : t = s := (Host.Outcome.next.inj ((exec_faulted hf).symm.trans h)).symm
  rcases hkeep with k | ⟨code, rfl⟩
  · exact ⟨k.ctrl, k.addr, k.len, k.seed1Lo, k.seed1Hi, k.seed2Lo, k.seed2Hi, k.seed3, k.seed4, k.memLast, k.pending,
      k.replies, hidle⟩
  · exact ⟨rfl, rfl, rfl, rfl, rfl, rfl, rfl, rfl, rfl, rfl, rfl, rfl, hidle⟩

/-- Settles O34: of the state that holds the other values only the registers of START are taken. -/
theorem onlyStartAndHashReadCtrlAndSeeds : Obligations.OnlyStartAndHashReadCtrlAndSeeds := by
  intro i s t c a b d e f g hs hh h
  exact exec_withStartRegisters
    { s with ctrl := c, seed1Lo := a, seed1Hi := b, seed2Lo := d, seed2Hi := e, seed3 := f, seed4 := g } hs hh h

/-! ### The address (20_memory.md R65) -/

/-- A state with another `ADDR`. -/
def withAddr (a : Word) (s : State) : State := { s with addr := a }

/-- The commands that read the data memory. -/
def readingCommands : List Instr := [.put, .hash, .blkPut, .blkPutn, .blkRem]

theorem startBody_withAddr (a : Word) (s : State) : startBody (withAddr a s) = withAddr a (startBody s) := by
  unfold startBody
  cases hv : variantOfCode s.ctrl with
  | none => simp only [withAddr, hv]
  | some v => simp only [withAddr, hv]; rfl

/-- On a chunk already read, PUT looks at `ADDR` no more. -/
theorem absorb_withAddr (a : Word) (data : List Byte) (s : State) :
    absorb data (withAddr a s) = withAddr a (absorb data s) := by
  simp only [absorb, absorbWhole, submitBlocks_eq, submitBlock, withAddr]
  split
  · rfl
  · split <;> rfl

theorem finishBody_withAddr (a : Word) (s : State) : finishBody (withAddr a s) = withAddr a (finishBody s) := by
  rw [finishBody_eq, finishBody_eq]
  rfl

/-- START leaves the operands of a PUT as they were. -/
theorem operandBytes_startBody (s : State) : operandBytes .put (startBody s) = operandBytes .hash s := by
  have k := startBody_host s
  have hmem : (startBody s).mem = s.mem := effectOf_mem (i := .start) nofun s
  rw [operandBytes, operandBytes, hmem, k.addr]
  simp only [bytesTouched, k.len]

/-- With the same bytes to read, a reading command has the same effect whatever `ADDR` holds. -/
theorem effectOf_withAddr {i : Instr} (hi : i ∈ readingCommands) {a : Word} {s : State}
    (h : operandBytes i (withAddr a s) = operandBytes i s) : effectOf i (withAddr a s) = withAddr a (effectOf i s) := by
  simp only [readingCommands, List.mem_cons, List.not_mem_nil, or_false] at hi
  rcases hi with rfl | rfl | rfl | rfl | rfl
  · rw [effectOf, putBody, putBody, h, absorb_withAddr]
  · have hread : operandBytes .put (startBody (withAddr a s)) = operandBytes .put (startBody s) := by
      rw [operandBytes_startBody, operandBytes_startBody, h]
    rw [effectOf, hashBody, hashBody, putBody, putBody, hread, startBody_withAddr, absorb_withAddr, finishBody_withAddr]
  all_goals
    simp only [effectOf, blkPutBody, blkPutnBody, blkRemBody, h]
    rfl

/-- Only the range check looks at `ADDR`. -/
theorem commandCause_withAddr {i : Instr} {a : Word} {s : State}
    (h : rangeCause (bytesTouched i s) (withAddr a s) = rangeCause (bytesTouched i s) s) :
    commandCause i (withAddr a s) = commandCause i s := by
  have hn : bytesTouched i (withAddr a s) = bytesTouched i s := by cases i <;> rfl
  have hphase : phaseCause i (withAddr a s).phase = phaseCause i s.phase := rfl
  have hcount : countCause i (withAddr a s) = countCause i s := by cases i <;> rfl
  have hoperand : operandCause i (withAddr a s) = operandCause i s := by cases i <;> rfl
  rw [commandCause, commandCause, hphase, hcount, hoperand, hn, h]

/-- Settles O36: both ranges pass the range check, and the bytes read are the same. -/
theorem readingCommandsIgnoreTheAddressItself : Obligations.ReadingCommandsIgnoreTheAddressItself := by
  intro s t i a a' hi hn hbytes h
  have htouch (x : Word) : bytesTouched i (withAddr x s) = bytesTouched i s := by cases i <;> rfl
  have hin : rangeCause (bytesTouched i s) (withAddr a s) = none :=
    rangeCause_eq_none.mpr (hn.imp_right fun ⟨h, _⟩ => h)
  have hin' : rangeCause (bytesTouched i s) (withAddr a' s) = none :=
    rangeCause_eq_none.mpr (hn.imp_right fun ⟨_, h⟩ => h)
  have hread : operandBytes i (withAddr a' s) = operandBytes i (withAddr a s) := by
    rw [operandBytes, operandBytes, htouch, htouch]
    exact memRead_congr fun j hj => (hbytes j hj).symm
  have hcause : commandCause i (withAddr a' s) = commandCause i (withAddr a s) :=
    commandCause_withAddr (s := withAddr a s) (by rw [htouch]; exact hin'.trans hin.symm)
  rcases exec_cases h with ⟨hf, rfl⟩ | ⟨hf, c, hc, rfl⟩ | ⟨hf, hc, rfl⟩
  · exact exec_faulted (s := withAddr a' s) hf
  · exact exec_of_cause (s := withAddr a' s) hf (hcause.trans hc)
  · exact (exec_of_pass (s := withAddr a' s) hf (hcause.trans hc)).trans
      (congrArg Host.Outcome.next (effectOf_withAddr hi (s := withAddr a s) hread))

end Sys2Proof.Machine
end

section
/-! PROOFS about the encodings: command words and register offsets (30_encoding.md R82 to R86), and the fields of `STATUS`
(10_state.md R27). -/

namespace Sys2Proof.Machine

/-- Settles O8: decoding undoes the encoder, and a register is found at its own offset only. -/
theorem encodersAndDecodersAgree : Obligations.EncodersAndDecodersAgree :=
  ⟨fun i _ => decode_encode i, registerAt_offsetOf, fun _ _ h => offsetOf_of_registerAt h⟩

/-- A number that is a command's word decodes to the command. -/
theorem decodeTableWord_encode (i : Instr) : decodeTableWord 32 (encode i).toNat = some i := by
  have hlt := (encode i).isLt
  have hword : BitVec.ofNat 32 ((encode i).toNat % 2 ^ 32) = encode i := by
    rw [Nat.mod_eq_of_lt hlt, BitVec.ofNat_toNat, BitVec.setWidth_eq]
  rw [decodeTableWord, if_pos (Nat.mod_lt _ (by decide)), hword, decode_encode]
  rfl

/-- Settles O9: nine numbers are the encoder's words; the five others evaluate to none. -/
theorem knownCommandWordsDecode : Obligations.KnownCommandWordsDecode :=
  ⟨decodeTableWord_encode .start, decodeTableWord_encode .put, decodeTableWord_encode .finish, decodeTableWord_encode .hash,
    decodeTableWord_encode .blkPut, decodeTableWord_encode .blkPutn, decodeTableWord_encode .blkRem,
    decodeTableWord_encode .blkFin, decodeTableWord_encode .get, by decide, by decide, by decide, by decide, by decide⟩

/-- A word made of four fields by shifts shows each of them at its place and 0 elsewhere. -/
theorem fields_of_shifted (p v : BitVec 2) (f : BitVec 1) (c : BitVec 4) {w : Word}
    (hw : w = p.setWidth 32 ||| v.setWidth 32 <<< 2 ||| f.setWidth 32 <<< 4 ||| c.setWidth 32 <<< 8) :
    w.extractLsb' 0 2 = p ∧ w.extractLsb' 2 2 = v ∧ w.extractLsb' 4 1 = f ∧ w.extractLsb' 5 3 = 0#3
      ∧ w.extractLsb' 8 4 = c ∧ w.extractLsb' 12 20 = 0#20 := by
  have hbit (i : Nat) (hi : i < 32) : w.getLsbD i =
      (p.getLsbD i || (decide (2 ≤ i) && v.getLsbD (i - 2)) || (decide (4 ≤ i) && f.getLsbD (i - 4))
        || (decide (8 ≤ i) && c.getLsbD (i - 8))) := by
    subst hw
    grind
  refine ⟨?_, ?_, ?_, ?_, ?_, ?_⟩ <;>
    exact BitVec.eq_of_getLsbD_eq fun i hi => by grind

/-- Settles O21: `STATUS` is made of the codes of its fields by shifts. -/
theorem statusFieldsStandApart : Obligations.StatusFieldsStandApart :=
  fun s => fields_of_shifted (phaseCode s.phase) (variantCode s.avar) (faultBit s.fault) s.cause rfl

end Sys2Proof.Machine
end

section
/-! PROOFS about what a computation computes: PUT in closed form (44_stream_commands.md R182), HASH and the PUTs of a stream as the
whole-message function (R184, R186, R187), and the block path beside the stream path (45_block_commands.md R216). -/

namespace Sys2Proof.Machine

/-! ### PUT (R182) -/

/-- PUT of no byte changes nothing. -/
theorem absorb_nil {s : State} (hc : s.count.toNat < blockBytes s.avar) : absorb [] s = s := by
  have hle : s.count.toNat ≤ 16 := hc.le.trans (blockBytes_le s.avar)
  rw [absorb_of_lt (by simpa using hc), List.length_nil, Nat.add_zero, bufWrite_nil s.buf hle, BitVec.ofNat_toNat,
    BitVec.setWidth_eq]

/-- The block steps of PUT as a loop over the block numbers of the buffered bytes and the chunk. -/
theorem absorb_eq_foldl {s : State} (hc : s.count.toNat < blockBytes s.avar) (data : List Byte) :
    absorb data s = { s with
      lanes := (List.range ((gathered data s).length / blockBytes s.avar)).foldl
        (fun h j => blockStep s.avar h (((gathered data s).drop (j * blockBytes s.avar)).take (blockBytes s.avar))) s.lanes
      size := s.size + BitVec.ofNat 64 ((gathered data s).length / blockBytes s.avar * blockBytes s.avar)
      buf := (absorb data s).buf
      count := BitVec.ofNat 4 ((gathered data s).length % blockBytes s.avar) } := by
  rw [← blockSteps_eq_foldl]
  exact (absorb_spec data s hc).1

/-- Settles O23: the phase and the range decide whether PUT runs; what it does to the gathered bytes is `absorb_spec`, and what it
leaves above them `absorb_dead`. -/
theorem putSubmitsWholeBlocksAndKeepsTheTail : Obligations.PutSubmitsWholeBlocksAndKeepsTheTail := by
  intro s b nb data all hf hb hdata hall hnb
  obtain rfl : b = blockBytes s.avar := hb
  obtain rfl : all = gathered data s := hall
  subst hnb
  refine ⟨exec_in_phase .idle .notStarted rfl hf, exec_in_phase .tail .blockAfterRem rfl hf,
    exec_in_phase .final .mutateAfterFinal rfl hf, fun hp => (put_passesToRange hp).exec_outside hf,
    fun hp hc hn => ⟨absorb data s, ?runs, absorb_eq_foldl hc data, ?live, fun j hj _ => ?dead, fun hl => ?empty⟩⟩
  case runs =>
    subst hdata
    exact (exec_put hf hp hn).1
  case live =>
    rw [absorb_count_toNat data hc]
    exact (absorb_spec data s hc).2
  case dead => exact absorb_dead data s hc j (absorb_count_toNat data hc ▸ hj)
  case empty =>
    have hnil : data = [] := by rw [hdata, hl]; rfl
    rw [hnil, absorb_nil hc]

/-! ### The whole-message functions (41_x86_32.md R126, 42_x86_128.md R146, 43_x64_128.md R166) -/

/-- FINISH on a fresh computation that has been given a message leaves the lanes of the whole-message function. -/
theorem Absorbed.finish_lanes {h : Lanes} {msg : List Byte} {t : State} (ht : Absorbed h 0#64 msg t)
    (hf : t.fault = false) :
    (finishBody t).lanes = messageLanes t.avar h msg ∧ (finishBody t).size = BitVec.ofNat 64 msg.length := by
  obtain ⟨-, -, -, -, hsize, hlanes⟩ := ht.finish hf
  rw [BitVec.zero_add] at hsize hlanes
  exact ⟨hlanes, hsize⟩

/-- A fresh computation has been given no byte. -/
theorem absorbed_fresh {s : State} (hp : s.phase = .absorb) (hc : s.count = 0#4) : Absorbed s.lanes s.size [] s := by
  have hzero : s.count.toNat = 0 := by rw [hc]; rfl
  have h := absorbed_start hp (hzero ▸ blockBytes_pos s.avar)
  rwa [hzero] at h

/-- A state is known by the fields no command writes and the seven that some command does. -/
theorem SameHostSide.eq {s t : State} (h : SameHostSide s t) :
    t = { s with
      phase := t.phase, avar := t.avar, lanes := t.lanes, size := t.size, buf := t.buf, count := t.count, mem := t.mem } := by
  obtain ⟨⟩ := h
  obtain ⟨⟩ := s
  obtain ⟨⟩ := t
  simp_all

/-- The effect of HASH: a fresh computation of the selected variant, given the bytes at `ADDR`, and finished (R184). -/
theorem effectOf_hash {s : State} {v : Variant} (hv : s.ctrl = variantCode v) :
    effectOf .hash s = finishBody (absorb (operandBytes .hash s) (startWith v s)) := by
  rw [effectOf, hashBody, startBody_of_variantCode hv]
  rfl

/-- Settles O46: HASH finishes a fresh computation that has been given the `LEN` bytes at `ADDR`. -/
theorem hashComputesTheWholeMessageFunction : Obligations.HashComputesTheWholeMessageFunction := by
  intro s v hf hv hn
  have hctrl : s.ctrl = variantCode v := hv
  refine ⟨effectOf .hash s, (hash_passesToRange (hctrl ▸ variantCode_ne_three v)).exec_inside hf hn, ?_⟩
  have heq := (effectOf_host .hash s).eq
  have hmem := effectOf_mem (i := .hash) nofun s
  rw [effectOf_hash hctrl] at heq hmem ⊢
  obtain ⟨-, havar, -⟩ := absorb_keeps (operandBytes .hash s) (startWith v s)
  have hfault := (absorb_host (operandBytes .hash s) (startWith v s)).fault.trans hf
  have habs : Absorbed (seedLanes v s) 0#64 (operandBytes .hash s) (absorb (operandBytes .hash s) (startWith v s)) :=
    (absorbed_fresh (s := startWith v s) rfl rfl).append (operandBytes .hash s)
  obtain ⟨-, hphase, hfinavar, hcount, -, -⟩ := habs.finish hfault
  obtain ⟨hlanes, hsize⟩ := habs.finish_lanes hfault
  rw [havar, startWith_avar] at hlanes hfinavar
  have hlen : BitVec.ofNat 64 (operandBytes .hash s).length = s.len.setWidth 64 := by
    rw [operandBytes, memRead_length, bytesTouched, BitVec.ofNat_toNat]
  rwa [hphase, hfinavar, hlanes, hsize, hcount, hmem, hlen] at heq

/-- Settles O47: the PUTs append their chunks to the empty message, and FINISH is that of the whole message. -/
theorem streamComputesTheWholeMessageFunction : Obligations.StreamComputesTheWholeMessageFunction := by
  intro s t chunks hp hf hc hz hfeed
  obtain ⟨habs, havar, hft⟩ := hfeed.absorbed (absorbed_fresh hp hc) hf
  rw [hz, List.nil_append] at habs
  obtain ⟨hexec, hphase, hav, hcount, -, -⟩ := habs.finish hft
  obtain ⟨hlanes, hsize⟩ := habs.finish_lanes hft
  exact ⟨_, hexec, hphase, hav.trans havar, hcount, havar ▸ hlanes, hsize⟩

/-- Settles O48: both series of PUTs append the same bytes to what was buffered. -/
theorem chunkingDoesNotMatter : Obligations.ChunkingDoesNotMatter := by
  intro s t u chunks m a n hp hf hc hfeed hput hclean hbytes
  have hone : Feeds s [memRead m a.toNat n.toNat] u := .chunk s u u m a n [] hput hclean (.done u)
  obtain ⟨ht, htv, htf⟩ := hfeed.absorbed (absorbed_start hp hc) hf
  obtain ⟨hu, huv, huf⟩ := hone.absorbed (absorbed_start hp hc) hf
  obtain ⟨htexec, htphase, htav, -, htsize, htlanes⟩ := ht.finish htf
  obtain ⟨huexec, huphase, huav, -, husize, hulanes⟩ := hu.finish huf
  have hmsg : [memRead m a.toNat n.toNat].flatten = chunks.flatten := by rw [List.flatten_singleton, hbytes]
  rw [htv] at htlanes
  rw [hmsg, huv] at hulanes
  rw [hmsg] at husize
  have hlanes := htlanes.trans hulanes.symm
  refine ⟨_, _, htexec, huexec, htphase, huphase, hlanes, htsize.trans husize.symm, ?_⟩
  rw [hlanes, htav, huav, htv, huv]

/-- Settles O49: of the bytes given the whole blocks have been counted and the rest is buffered. -/
theorem sizeCountsTheSubmittedBytes : Obligations.SizeCountsTheSubmittedBytes := by
  intro s t chunks hp hf hc hz hfeed
  obtain ⟨habs, havar, -⟩ := hfeed.absorbed (absorbed_fresh hp hc) hf
  have hcount := habs.count
  have hsize := habs.size
  rw [List.nil_append, havar] at hcount
  rw [hz, BitVec.zero_add, List.nil_append, havar] at hsize
  refine ⟨hcount, ?_⟩
  rw [hsize, hcount, Nat.div_mul_self_eq_mod_sub_self]

/-! ### The block path (45_block_commands.md R216) -/

/-- Of `n` blocks and fewer than `B` bytes behind them, the whole blocks are the first and the tail is the second. -/
theorem message_parts {v : Variant} {n : Nat} {blocks rest : List Byte} (hb : blocks.length = n * blockBytes v)
    (hr : rest.length < blockBytes v) (h : Lanes) :
    blockSteps v ((blocks ++ rest).length / blockBytes v) (blocks ++ rest) h = blockSteps v n blocks h
    ∧ (blocks ++ rest).drop ((blocks ++ rest).length / blockBytes v * blockBytes v) = rest := by
  have hn : (blocks ++ rest).length / blockBytes v = n := by
    rw [List.length_append, hb, Nat.add_comm, Nat.add_mul_div_right _ _ (blockBytes_pos v), Nat.div_eq_of_lt hr, Nat.zero_add]
  rw [hn]
  exact ⟨blockSteps_append v n blocks rest h hb.ge, List.drop_left' hb⟩

/-- The block path up to BLK_FIN: the lanes have stepped the blocks and folded the rest, and `SIZE` has counted both. -/
theorem blkPutn_blkRem_ran {s s1 s2 : State} {a a' n r : Word} (h1 : exec .blkPutn { s with addr := a, len := n } = .next s1)
    (hf1 : s1.fault = false) (h2 : exec .blkRem { s1 with addr := a', len := r } = .next s2) (hf2 : s2.fault = false) :
    s2 = { s with
      addr := a'
      len := r
      lanes := remainder s.avar
        (blockSteps s.avar n.toNat (memRead s.mem a.toNat (n.toNat * blockBytes s.avar)) s.lanes)
        (memRead s.mem a'.toNat r.toNat)
      size := s.size + BitVec.ofNat 64 (n.toNat * blockBytes s.avar + r.toNat)
      phase := .tail } := by
  obtain ⟨-, -, rfl⟩ := exec_ran h1 hf1
  obtain ⟨-, -, rfl⟩ := exec_ran h2 hf2
  rw [BitVec.ofNat_add, ← BitVec.add_assoc, BitVec.ofNat_toNat]
  rfl

/-- Settles O50: BLK_PUTN steps the whole blocks of the bytes and BLK_REM folds the rest, which is what a PUT of all of them into an
empty buffer and FINISH do. -/
theorem blockPathEqualsStreamPath : Obligations.BlockPathEqualsStreamPath := by
  intro s s1 s2 t1 a a' n r l hp hf hc hr hl ha' h1 hf1 h2 hf2 h3 hf3
  have hs2 := blkPutn_blkRem_ran h1 hf1 h2 hf2
  have hpass : PassesToRange .blkFin s2 := by
    rw [hs2]
    exact blkFin_passesToRange (.inr rfl) hc
  have hblkFin : exec .blkFin s2 = .next (finalizeState s2) := hpass.exec_inside hf2 (.inl rfl)
  obtain ⟨-, -, ht⟩ := put_ran h3 hf3
  have hmsg : memRead s.mem a.toNat l.toNat =
      memRead s.mem a.toNat (n.toNat * blockBytes s.avar) ++ memRead s.mem a'.toNat r.toNat := by
    rw [hl, memRead_add, ha']
  have havar : t1.avar = s.avar := by rw [ht]; exact (absorb_keeps _ _).2.1
  have habs : Absorbed s.lanes s.size
      (memRead s.mem a.toNat (n.toNat * blockBytes s.avar) ++ memRead s.mem a'.toNat r.toNat) t1 := by
    rw [ht, ← hmsg]
    exact (absorbed_fresh (s := { s with addr := a, len := l }) hp hc).append _
  obtain ⟨hblocks, htail⟩ := message_parts (n := n.toNat) (blocks := memRead s.mem a.toNat (n.toNat * blockBytes s.avar))
    (rest := memRead s.mem a'.toNat r.toNat) (memRead_length ..) (by rwa [memRead_length]) s.lanes
  obtain ⟨hexec, hphase, hfinavar, -, hsize, hlanes⟩ := habs.finish hf3
  rw [havar, hblocks, htail] at hlanes
  rw [havar] at hfinavar
  rw [List.length_append, memRead_length, memRead_length] at hsize hlanes
  subst hs2
  refine ⟨_, _, hblkFin, hexec, rfl, hphase, hlanes.symm, hsize.symm, ?_⟩
  rw [hlanes, hfinavar]
  rfl

/-- The first of `n + 1` blocks in memory, then the `n` behind it. -/
theorem blockSteps_succ_memRead (v : Variant) (m : List Host.Cell) (a n : Nat) (h : Lanes) :
    blockSteps v (n + 1) (memRead m a ((n + 1) * blockBytes v)) h =
      blockSteps v n (memRead m (a + blockBytes v) (n * blockBytes v)) (blockStep v h (memRead m a (blockBytes v))) := by
  have hsplit : (n + 1) * blockBytes v = blockBytes v + n * blockBytes v := by ring
  rw [hsplit, memRead_add, blockSteps_succ, List.take_left' (memRead_length ..), List.drop_left' (memRead_length ..)]

/-- Settles O51: the first block is BLK_PUT's and the others BLK_PUTN's, which counts the bytes of its own blocks. -/
theorem blkPutnIsOneBlockThenTheRest : Obligations.BlkPutnIsOneBlockThenTheRest := by
  intro s x y z n a' hp hf hc hlen ha' hx hfx hy hfy hz hfz
  obtain ⟨-, -, rfl⟩ := exec_ran hx hfx
  obtain ⟨-, -, rfl⟩ := exec_ran hy hfy
  obtain ⟨-, -, rfl⟩ := exec_ran hz hfz
  refine ⟨?lanes, ?size⟩
  case lanes =>
    show blockSteps s.avar s.len.toNat (memRead s.mem s.addr.toNat (s.len.toNat * blockBytes s.avar)) s.lanes =
      blockSteps s.avar n.toNat (memRead s.mem a'.toNat (n.toNat * blockBytes s.avar))
        (blockStep s.avar s.lanes (memRead s.mem s.addr.toNat (blockBytes s.avar)))
    rw [hlen, ha', blockSteps_succ_memRead]
  case size =>
    show s.size + BitVec.ofNat 64 (s.len.toNat * blockBytes s.avar) =
      s.size + BitVec.ofNat 64 (n.toNat * blockBytes s.avar) + BitVec.ofNat 64 (blockBytes s.avar)
    rw [hlen, Nat.succ_mul, BitVec.ofNat_add, BitVec.add_assoc]

end Sys2Proof.Machine
end

section
/-! PROOFS about the mixing formulas (40_mixing.md): `shuffle` (R102), `update` (R103), the two finalizers (R104, R105), and the worked
examples of the datapath (95_test_vectors.md). -/

namespace Sys2Proof.Machine

/-! ### The finalizers (R104, R105) -/

/-- The shape of both finalizers: three "xor>>s" and two products between them. -/
def mixSteps {w : Nat} (s1 s2 s3 : Nat) (c1 c2 h : BitVec w) : BitVec w :=
  xorShift (c2 * xorShift (c1 * xorShift h s1) s2) s3

theorem mixSteps_injective {w s1 s2 s3 : Nat} {c1 c2 : BitVec w} (h1 : 0 < s1) (h2 : 0 < s2) (h3 : 0 < s3)
    (hc1 : c1.getLsbD 0 = true) (hc2 : c2.getLsbD 0 = true) : Function.Injective (mixSteps s1 s2 s3 c1 c2) :=
  (xorShift_injective h3).comp <| (mul_injective_of_odd hc2).comp <| (xorShift_injective h2).comp <|
    (mul_injective_of_odd hc1).comp (xorShift_injective h1)

/-- The five steps, with the products as the spec writes them. -/
theorem mixSteps_eq {w s1 s2 s3 : Nat} {c1 c2 h a b c d e : BitVec w} (ha : a = h ^^^ (h >>> s1)) (hb : b = a * c1)
    (hc : c = b ^^^ (b >>> s2)) (hd : d = c * c2) (he : e = d ^^^ (d >>> s3)) : mixSteps s1 s2 s3 c1 c2 h = e := by
  subst ha hb hc hd he
  simp only [mixSteps, xorShift, BitVec.mul_comm]

/-- Zero passes through every step. -/
theorem mixSteps_zero {w : Nat} (s1 s2 s3 : Nat) (c1 c2 : BitVec w) : mixSteps s1 s2 s3 c1 c2 0#w = 0#w := by
  simp [mixSteps, xorShift]

theorem finalMix32_eq_mixSteps : finalMix32 = mixSteps 16 13 16 0x85ebca6b#32 0xc2b2ae35#32 := rfl

theorem finalMix64_eq_mixSteps : finalMix64 = mixSteps 33 33 33 0xff51afd7ed558ccd#64 0xc4ceb9fe1a85ec53#64 := rfl

/-- Settles O39: the shifts are positive and both constants odd, so no step loses anything. -/
theorem finalMix32IsABijection : Obligations.FinalMix32IsABijection := by
  unfold Obligations.FinalMix32IsABijection
  rw [finalMix32_eq_mixSteps]
  refine ⟨fun h a b c d e ha hb hc hd he => ?_, ?_, ?_, by decide, by decide⟩
  · exact mixSteps_eq ha hb hc hd he
  · exact Finite.injective_iff_bijective.mp (mixSteps_injective (by decide) (by decide) (by decide) (by decide) (by decide))
  · exact mixSteps_zero 16 13 16 _ _

/-- Settles O40: the shifts are positive and both constants odd, so no step loses anything. -/
theorem finalMix64IsABijection : Obligations.FinalMix64IsABijection := by
  unfold Obligations.FinalMix64IsABijection
  rw [finalMix64_eq_mixSteps]
  refine ⟨fun k a b c d e ha hb hc hd he => ?_, ?_, ?_, by decide⟩
  · exact mixSteps_eq ha hb hc hd he
  · exact Finite.injective_iff_bijective.mp (mixSteps_injective (by decide) (by decide) (by decide) (by decide) (by decide))
  · exact mixSteps_zero 33 33 33 _ _

/-! ### `update` (R103) -/

/-- Settles O59: the three intermediate words are those of the definition, and the last sum and product commute. -/
theorem updateFollowsItsFormula : Obligations.UpdateFollowsItsFormula := by
  refine ⟨fun w h k mixWith c1 c2 n t1 t2 t3 r1 r2 h1 h2 h3 => ?_, by decide, by decide⟩
  subst h1 h2 h3
  rw [BitVec.add_comm, BitVec.mul_comm]
  rfl

/-! ### `shuffle` (R102) -/

/-- The rotator loses nothing: each bit of the word stands at some place of the rotated one (R101). -/
theorem rotl_injective {w r : Nat} (hr : r ≤ w) : Function.Injective fun x : BitVec w => rotl x r := by
  intro x y h
  refine BitVec.eq_of_getLsbD_eq fun i hi => ?_
  have hlt : (i + r) % w < w := Nat.mod_lt _ (by omega)
  have hback : ((i + r) % w + (w - r)) % w = i := by
    rw [Nat.mod_add_mod, show i + r + (w - r) = i + w by omega, Nat.add_mod_right, Nat.mod_eq_of_lt hi]
  have hbit := congrArg (fun z => z.getLsbD ((i + r) % w)) h
  simpa only [getLsbD_rotl _ hr hlt, hback] using hbit

/-- `shuffle` is a product, a rotation and a product. -/
theorem shuffle_eq_comp {w : Nat} (c1 c2 : BitVec w) (r1 : Nat) :
    (fun k => shuffle k c1 c2 r1) = (fun x => c2 * x) ∘ (fun x => rotl x r1) ∘ (fun x => c1 * x) := rfl

/-- `shuffle` loses nothing exactly when both products lose nothing. -/
theorem shuffle_injective_iff {w : Nat} {c1 c2 : BitVec w} {r1 : Nat} (hw : 0 < w) (hr : r1 ≤ w) :
    Function.Injective (fun k => shuffle k c1 c2 r1) ↔ c1.getLsbD 0 = true ∧ c2.getLsbD 0 = true := by
  rw [shuffle_eq_comp]
  constructor
  · intro h
    have hfirst : Function.Injective fun x : BitVec w => c1 * x := h.of_comp.of_comp
    have hinner := Finite.injective_iff_bijective.mp ((rotl_injective hr).comp hfirst)
    have hlast : Function.Injective fun x : BitVec w => c2 * x := h.of_comp_right hinner.surjective
    refine ⟨?_, ?_⟩
    · exact Bool.eq_true_of_not_eq_false fun hc => mul_not_injective_of_even hw hc hfirst
    · exact Bool.eq_true_of_not_eq_false fun hc => mul_not_injective_of_even hw hc hlast
  · rintro ⟨h1, h2⟩
    exact (mul_injective_of_odd h2).comp ((rotl_injective hr).comp (mul_injective_of_odd h1))

theorem rotl_zero (w r : Nat) : rotl 0#w r = 0#w := by
  unfold rotl
  split <;> simp

/-- Settles O58: the formula with its factors in the spec's order; the odd constants are what the two products need. -/
theorem shuffleFollowsItsFormula : Obligations.ShuffleFollowsItsFormula := by
  refine ⟨fun w k c1 c2 r1 => ⟨?_, ?_⟩, fun w c1 c2 r1 hw hr => shuffle_injective_iff hw hr, by decide, by decide,
    by decide⟩
  · rw [shuffle, BitVec.mul_comm, BitVec.mul_comm c1]
  · rw [shuffle, BitVec.mul_zero, rotl_zero, BitVec.mul_zero]

/-! ### The worked examples (95_test_vectors.md sections 2 and 3.1) -/

/-- Settles O45: each of the examples is a closed computation. -/
theorem datapathWorkedExamples : Obligations.DatapathWorkedExamples :=
  ⟨by decide, by decide, by decide, by decide, by decide, by decide, by decide, by decide, by decide, by decide, by decide,
    by decide, by decide, by decide, by decide, by decide, by decide⟩

end Sys2Proof.Machine
end

section
/-! PROOFS about the 128-bit variants: block step, remainder step, finalize and result of `x86_128` (42_x86_128.md R141 to R144) and
of `x64_128` (43_x64_128.md R161 to R164). -/

namespace Sys2Proof.Machine

/-! ### Parts of a remainder -/

/-- A part of a remainder has a byte exactly when the remainder is long enough to reach it. -/
theorem one_le_length_slice {bytes : List Byte} {a b : Nat} (hab : a < b) :
    1 ≤ (slice bytes a b).length ↔ a < bytes.length := by
  rw [slice, List.length_take, List.length_drop]
  omega

/-- The last part of a remainder is all that is left. -/
theorem slice_eq_drop {bytes : List Byte} {a b : Nat} (hb : bytes.length ≤ b) : slice bytes a b = bytes.drop a :=
  List.take_of_length_le (by rw [List.length_drop]; omega)

/-- A 32-bit lane's part of the remainder step, by the place of its part (42_x86_128.md R142). -/
theorem foldPart32_slice (p : LaneParams 32) (h : DWord) {bytes : List Byte} {a b : Nat} (hab : a < b) :
    foldPart32 p h (slice bytes a b) = if a < bytes.length then
      (lo32 h ^^^ shuffle (BitVec.ofNat 32 (packLE (slice bytes a b))) p.cA p.cB p.r1).setWidth 64 else h := by
  rw [foldPart32]
  exact if_congr (one_le_length_slice hab) rfl rfl

/-- A 64-bit lane's part of the remainder step, by the place of its part (43_x64_128.md R162). -/
theorem foldPart64_slice (p : LaneParams 64) (h : DWord) {bytes : List Byte} {a b : Nat} (hab : a < b) :
    foldPart64 p h (slice bytes a b) = if a < bytes.length then
      h ^^^ shuffle (BitVec.ofNat 64 (packLE (slice bytes a b))) p.cA p.cB p.r1 else h := by
  rw [foldPart64]
  exact if_congr (one_le_length_slice hab) rfl rfl

/-- Byte `j` of an unpacked value is bits `[8j+7 : 8j]` of it (20_memory.md R64). -/
theorem getD_unpackLE {w n j : Nat} (x : BitVec w) (hj : j < n) :
    (unpackLE x.toNat n).getD j 0#8 = x.extractLsb' (8 * j) 8 := by
  rw [unpackLE_toNat, List.getD_eq_getElem _ _ (by simpa using hj), List.getElem_map, List.getElem_range]

/-! ### The variant `x86_128` (42_x86_128.md) -/

/-- Settles O43: the lanes' low halves are the spec's 32-bit lanes, each part of the remainder stands at the lane's own place, and the
rest is the definition. -/
theorem hasherOfX86_128 : Obligations.HasherOfX86_128 := by
  intro h blk t size k1 k2 k3 k4 p1 p2 p3 p4 l a b c d hk1 hk2 hk3 hk4 hl
  simp only [← lo32_eq_setWidth] at hk1 hk2 hk3 hk4 hl
  subst hk1 hk2 hk3 hk4 hl
  refine ⟨fun h1 h2 h3 h4 => ?block, fun ht => ?remainder, fun ha hb hc hd => ?finalize, rfl, rfl, rfl, rfl⟩
  case block =>
    subst h1 h2 h3 h4
    rfl
  case remainder =>
    have hlast : slice t 12 16 = t.drop 12 := slice_eq_drop (by omega)
    rw [remainder, remainderX86_128, foldPart32_slice _ _ (by decide : 0 < 4), foldPart32_slice _ _ (by decide : 4 < 8),
      foldPart32_slice _ _ (by decide : 8 < 12), foldPart32_slice _ _ (by decide : 12 < 16), hlast]
    rfl
  case finalize =>
    subst ha hb hc hd
    rfl

/-! ### The variant `x64_128` (43_x64_128.md) -/

/-- Settles O44: each part of the remainder stands at the lane's own place, the result is the two lanes unpacked, and the rest is the
definition. -/
theorem hasherOfX64_128 : Obligations.HasherOfX64_128 := by
  intro h blk t size p1 p2 a b
  have hlen : (unpackLE h.h1.toNat 8).length = 8 := unpackLE_length ..
  refine ⟨fun h1 h2 => ?block, fun ht => ?remainder, fun ha hb => ?finalize, fun j hj => ?low, fun j hj => ?high,
    result_length .x64_128 h⟩
  case block =>
    subst h1 h2
    rfl
  case remainder =>
    have hlast : slice t 8 16 = t.drop 8 := slice_eq_drop (by omega)
    rw [remainder, remainderX64_128, foldPart64_slice _ _ (by decide : 0 < 8), foldPart64_slice _ _ (by decide : 8 < 16),
      hlast]
    rfl
  case finalize =>
    subst ha hb
    rfl
  case low => rw [result, resultX64_128, List.getD_append _ _ _ _ (hlen ▸ hj), getD_unpackLE _ hj]
  case high =>
    rw [result, resultX64_128, List.getD_append_right _ _ _ _ (by omega), hlen, Nat.add_sub_cancel_left, getD_unpackLE _ hj]

end Sys2Proof.Machine
end

section
/-! PROOFS about the data memory as the host and several instances share it (20_memory.md R67, R72, 60_exceptions.md R285). -/

namespace Sys2Proof.Machine

/-! ### The host's own accesses (20_memory.md R60, R67, R72) -/

theorem step_memWrite {s : State} {a : Word} {v : Byte} {rest : List HostAction} (h : s.pending = .memWrite a v :: rest)
    (ha : a.toNat < memSize s) : step s = .next { s with mem := storeByte s.mem a.toNat v, pending := rest } :=
  (step_action h).trans (if_pos ha)

theorem step_memRead {s : State} {a : Word} {rest : List HostAction} (h : s.pending = .memRead a :: rest)
    (ha : a.toNat < memSize s) :
    step s = .next { s with pending := rest, replies := .byte (loadByte s.mem a.toNat) :: s.replies } :=
  (step_action h).trans (if_pos ha)

/-- Settles O55: the read finds the memory that the write has left. -/
theorem hostReadsWhatWasLastWritten : Obligations.HostReadsWhatWasLastWritten := by
  intro s a b v rest hwf ha hb hp
  have hload (x : Nat) := loadByte_storeByte hwf a.toNat v x
  refine ⟨_, _, step_memWrite hp ha, rfl, hload, step_memRead rfl hb, ?_⟩
  simp only [hload, BitVec.toNat_inj]

/-! ### Several instances (60_exceptions.md R285) -/

/-- A step of a unit that is there: the step of its view, put back into its own place. -/
theorem stepUnit_eq_next_iff {k : Nat} {y y' : System} {u : State} (hu : y.units[k]? = some u) :
    stepUnit k y = .next y' ↔
      ∃ u', step (unitView y u) = .next u' ∧ y' = { y with mem := u'.mem, units := y.units.set k u' } := by
  simp only [stepUnit, hu]
  cases step (unitView y u) with
  | next u' => simp [eq_comm]
  | fault r => simp
  | refused r => simp

/-- A step of a unit that is not there does nothing. -/
theorem stepUnit_of_none {k : Nat} {y : System} (hu : y.units[k]? = none) : stepUnit k y = .next y := by
  rw [stepUnit, hu]

/-- Settles O56: the step of a unit is the step of its view of the memory, and only its own place is replaced. -/
theorem instancesShareOnlyTheMemory : Obligations.InstancesShareOnlyTheMemory := by
  refine ⟨fun k y y' h => ?frame, fun k y z y' hmem hlast hunit h => ?alone⟩
  case frame =>
    cases hu : y.units[k]? with
    | none =>
      obtain rfl := Host.Outcome.next.inj ((stepUnit_of_none hu).symm.trans h)
      exact ⟨rfl, rfl, fun _ _ => rfl⟩
    | some u =>
      obtain ⟨u', -, rfl⟩ := (stepUnit_eq_next_iff hu).mp h
      exact ⟨List.length_set .., rfl, fun j hj => List.getElem?_set_ne hj.symm⟩
  case alone =>
    cases hu : y.units[k]? with
    | none =>
      obtain rfl := Host.Outcome.next.inj ((stepUnit_of_none hu).symm.trans h)
      exact ⟨z, stepUnit_of_none (hunit ▸ hu), hmem.symm, hunit.symm⟩
    | some u =>
      obtain ⟨u', hstep, rfl⟩ := (stepUnit_eq_next_iff hu).mp h
      have hview : unitView z u = unitView y u := by rw [unitView, unitView, hmem, hlast]
      have hz : z.units[k]? = some u := hunit ▸ hu
      obtain ⟨hky, -⟩ := List.getElem?_eq_some_iff.mp hu
      obtain ⟨hkz, -⟩ := List.getElem?_eq_some_iff.mp hz
      refine ⟨_, (stepUnit_eq_next_iff hz).mpr ⟨u', hview ▸ hstep, rfl⟩, rfl, ?_⟩
      rw [List.getElem?_set_self hkz, List.getElem?_set_self hky]

end Sys2Proof.Machine
end
